-- ==== Sys2Proof/Word.lean ====
section
/-!
DEFINITION. The word types of the machine (spec/00_scope.md rules R5, R6): XLEN = 64 bits for a register, the program
counter, an immediate, an address and a data transfer; a byte is 8 bits; a nibble is a 4-bit field of the opcode byte
or of the register byte.
-/

namespace Sys2Proof

/-- A 64-bit value (R5, XLEN): register, program counter, immediate, address, data. `+` and `-` wrap modulo 2^64 (R6). -/
abbrev Word := BitVec 64

/-- One cell of memory, one byte of an instruction (R6, R23). -/
abbrev Byte := BitVec 8

/-- A 4-bit field: `icode`, `ifun`, or a register id as encoded (R51, R52). -/
abbrev Nibble := BitVec 4

end Sys2Proof
end

