-- ==== Sys2Proof/Syntax.lean ====
section
/-!
DEFINITION. The instructions as syntax: one constructor of `Instr` per row of spec/opcode_table.json (27 rows), with
exactly the operands the row's instruction uses; and `Fields`, the encoded fields of one instruction before they are
read as an instruction (spec/10_state.md rule R24).
-/

namespace Sys2Proof

/-- A register id (spec/10_state.md rule R13): "a real slot 0-14" or "none" (encoded 15). Storage is never indexed by 15. -/
inductive RegId
  /-- One of the 15 general registers (R11). -/
  | slot (i : Fin 15)
  /-- No register (R13). -/
  | none
deriving DecidableEq, Repr

/-! The register names of spec/10_state.md rule R12: labels for assembly text, without a hardware role of their own. -/

abbrev RegId.rax : RegId := .slot 0
abbrev RegId.rcx : RegId := .slot 1
abbrev RegId.rdx : RegId := .slot 2
abbrev RegId.rbx : RegId := .slot 3
abbrev RegId.rsp : RegId := .slot 4
abbrev RegId.rbp : RegId := .slot 5
abbrev RegId.rsi : RegId := .slot 6
abbrev RegId.rdi : RegId := .slot 7
abbrev RegId.r8 : RegId := .slot 8
abbrev RegId.r9 : RegId := .slot 9
abbrev RegId.r10 : RegId := .slot 10
abbrev RegId.r11 : RegId := .slot 11
abbrev RegId.r12 : RegId := .slot 12
abbrev RegId.r13 : RegId := .slot 13
abbrev RegId.r14 : RegId := .slot 14

/-- The seven branch conditions of spec/30_encoding.md rule R58. -/
inductive Cond
  | always | le | l | e | ne | ge | g
deriving DecidableEq, Repr

/-- The four ALU functions of spec/30_encoding.md rule R57. -/
inductive AluFn
  | add | sub | and | xor
deriving DecidableEq, Repr

/-- The instructions (spec/30_encoding.md rules R55, R65), operands in assembler order: source first, destination last. -/
inductive Instr
  /-- `halt` (R100). -/
  | halt
  /-- `nop` (R101). -/
  | nop
  /-- `rrmovq rA, rB` (R111). -/
  | rrmovq (rA rB : RegId)
  /-- `cmovle rA, rB` (R112). -/
  | cmovle (rA rB : RegId)
  /-- `cmovl rA, rB` (R113). -/
  | cmovl (rA rB : RegId)
  /-- `cmove rA, rB` (R114). -/
  | cmove (rA rB : RegId)
  /-- `cmovne rA, rB` (R115). -/
  | cmovne (rA rB : RegId)
  /-- `cmovge rA, rB` (R116). -/
  | cmovge (rA rB : RegId)
  /-- `cmovg rA, rB` (R117). -/
  | cmovg (rA rB : RegId)
  /-- `irmovq $V, rB` (R118). -/
  | irmovq (imm : Word) (rB : RegId)
  /-- `rmmovq rA, D(rB)` (R121). -/
  | rmmovq (rA : RegId) (disp : Word) (rB : RegId)
  /-- `mrmovq D(rB), rA` (R122). -/
  | mrmovq (disp : Word) (rB : RegId) (rA : RegId)
  /-- `addq rA, rB` (R131). -/
  | addq (rA rB : RegId)
  /-- `subq rA, rB` (R132). -/
  | subq (rA rB : RegId)
  /-- `andq rA, rB` (R133). -/
  | andq (rA rB : RegId)
  /-- `xorq rA, rB` (R134). -/
  | xorq (rA rB : RegId)
  /-- `jmp Dest` (R141). -/
  | jmp (dest : Word)
  /-- `jle Dest` (R142). -/
  | jle (dest : Word)
  /-- `jl Dest` (R143). -/
  | jl (dest : Word)
  /-- `je Dest` (R144). -/
  | je (dest : Word)
  /-- `jne Dest` (R145). -/
  | jne (dest : Word)
  /-- `jge Dest` (R146). -/
  | jge (dest : Word)
  /-- `jg Dest` (R147). -/
  | jg (dest : Word)
  /-- `call Dest` (R150). -/
  | call (dest : Word)
  /-- `ret` (R151). -/
  | ret
  /-- `pushq rA` (R160). -/
  | pushq (rA : RegId)
  /-- `popq rA` (R161). -/
  | popq (rA : RegId)
deriving DecidableEq, Repr

/-- The encoded fields of one instruction, as the decoder of spec/30_encoding.md rule R63 extracts them: every bit of
the instruction's bytes is in one of them, the ignored nibbles (R59, R62) among them. -/
structure Fields where
  /-- Opcode class, high nibble of the first byte (R51). -/
  icode : Nibble
  /-- Sub-function, low nibble of the first byte (R51). -/
  ifun : Nibble
  /-- High nibble of the register byte, 15 where there is none (R52). -/
  rA : Nibble
  /-- Low nibble of the register byte, 15 where there is none (R52). -/
  rB : Nibble
  /-- The immediate, 0 where there is none (R53). -/
  valC : Word
deriving DecidableEq, Repr

end Sys2Proof
end

