-- ==== Sys2Proof/WellFormed.lean ====
section
/-!
DEFINITION. When encoded fields are those of an instruction of this hardware (spec/30_encoding.md rules R55 to R62).

The operands of `Instr` are typed so that every value of them has an encoding (R52: every nibble value decodes; R53:
every 64-bit immediate is legal), so what can be ill-formed is the encoded form, `Fields`: four checks, written from the
class tables of R55 to R58 and not from the decoder. An instruction is well formed when the fields it is encoded with
are (`Instr.wellFormed`, Decode.lean, beside the table that gives those fields).
-/

namespace Sys2Proof

/-- The opcode class is one of 0 to 11 (R55, R60). -/
def Fields.classDefined (f : Fields) : Bool := f.icode.toNat ≤ 11

/-- The sub-function selects something where the class uses it: a condition in classes 2 and 7 (R58), an ALU function in
class 6 (R57); in the other classes every value is accepted (R59). -/
def Fields.functionDefined (f : Fields) : Bool :=
  if f.icode.toNat = 2 ∨ f.icode.toNat = 7 then f.ifun.toNat ≤ 6
  else if f.icode.toNat = 6 then f.ifun.toNat ≤ 3
  else true

/-- Classes 0, 1, 7, 8 and 9 carry no register byte, and both ids are then 15 (R52, R54). -/
def Fields.registersCarried (f : Fields) : Bool :=
  if f.icode.toNat ∈ [0, 1, 7, 8, 9] then f.rA = 15 ∧ f.rB = 15 else true

/-- Classes 0, 1, 2, 6, 9, 10 and 11 carry no immediate, and it is then 0 (R53, R54). -/
def Fields.immediateCarried (f : Fields) : Bool :=
  if f.icode.toNat ∈ [0, 1, 2, 6, 9, 10, 11] then f.valC = 0 else true

/-- The fields of an instruction of this hardware. -/
def Fields.wellFormed (f : Fields) : Bool :=
  f.classDefined && f.functionDefined && f.registersCarried && f.immediateCarried

end Sys2Proof
end

