-- ==== Sys2Proof/Decode.lean ====
section
/-!
DEFINITION. The decoder (spec/30_encoding.md rules R50 to R64), total on any bytes and rejecting by name; the canonical
encoder; the byte-order and bit-field helpers both use; and `decodeTableWord`, the decoder on a word numbered as
spec/opcode_table.json numbers it. `decode` reads the bytes of an instruction in memory order and answers the
instruction with the bytes that follow it.
-/

namespace Sys2Proof

/-! ## Bit fields and byte order -/

/-- `bits[7:4]` of a byte (R6). -/
def hiNibble (b : Byte) : Nibble := b.extractLsb' 4 4

/-- `bits[3:0]` of a byte (R6). -/
def loNibble (b : Byte) : Nibble := b.extractLsb' 0 4

/-- The byte with the given high and low nibble. -/
def byteOfNibbles (hi lo : Nibble) : Byte := hi ++ lo

/-- The 64-bit value of eight bytes, the first at the lowest address: little-endian (R32, R34, R53). -/
def wordOfBytes (b0 b1 b2 b3 b4 b5 b6 b7 : Byte) : Word :=
  b7 ++ (b6 ++ (b5 ++ (b4 ++ (b3 ++ (b2 ++ (b1 ++ b0))))))

/-- Byte `i` of a 64-bit value: `bits[8*i+7 : 8*i]` (R33). -/
def byteOfWord (v : Word) (i : Nat) : Byte := v.extractLsb' (8 * i) 8

/-- The eight bytes of a 64-bit value, the one at the lowest address first (R33, R34). -/
def bytesOfWord (v : Word) : List Byte :=
  [byteOfWord v 0, byteOfWord v 1, byteOfWord v 2, byteOfWord v 3,
   byteOfWord v 4, byteOfWord v 5, byteOfWord v 6, byteOfWord v 7]

/-! ## Register ids, sub-functions and classes -/

/-- The register id a nibble encodes: 0 to 14 a register, 15 "none" (R52). -/
def RegId.ofNibble (n : Nibble) : RegId :=
  if h : n.toNat < 15 then .slot ⟨n.toNat, h⟩ else .none

/-- The nibble that encodes a register id (R52). -/
def RegId.nibble : RegId → Nibble
  | .slot i => BitVec.ofNat 4 i.val
  | .none => 15

/-- The condition a sub-function of class 2 or 7 selects; 7 to 15 select none (R58). -/
def Cond.ofFn (n : Nibble) : Option Cond :=
  match n.toNat with
  | 0 => some .always
  | 1 => some .le
  | 2 => some .l
  | 3 => some .e
  | 4 => some .ne
  | 5 => some .ge
  | 6 => some .g
  | _ => none

/-- The ALU function a sub-function of class 6 selects; 4 to 15 select none (R57). -/
def AluFn.ofFn (n : Nibble) : Option AluFn :=
  match n.toNat with
  | 0 => some .add
  | 1 => some .sub
  | 2 => some .and
  | 3 => some .xor
  | _ => none

/-- Which classes carry a register byte (R56). -/
def needRegs (icode : Nibble) : Bool :=
  match icode.toNat with
  | 2 | 3 | 4 | 5 | 6 | 10 | 11 => true
  | _ => false

/-- Which classes carry an 8-byte immediate (R56). -/
def needImm (icode : Nibble) : Bool :=
  match icode.toNat with
  | 3 | 4 | 5 | 7 | 8 => true
  | _ => false

/-- An instruction's length in bytes, a function of the class alone (R50, R56). -/
def lengthOfClass (icode : Nibble) : Nat :=
  1 + (if needRegs icode then 1 else 0) + (if needImm icode then 8 else 0)

/-- The reserved encodings (R61): a sub-function of class 2, 6 or 7 that selects nothing. -/
def reservedFn (icode ifun : Nibble) : Bool :=
  match icode.toNat with
  | 2 | 7 => (Cond.ofFn ifun).isNone
  | 6 => (AluFn.ofFn ifun).isNone
  | _ => false

/-! ## The decoder -/

/-- Why bytes are not those of an instruction, in the order the decoder tests (R63). -/
inductive Reject
  /-- There is no opcode byte (R63: `ADR` when `pc >= C`). -/
  | noOpcode
  /-- The opcode class is 12 to 15 (R60). -/
  | invalidClass (icode : Nibble)
  /-- The sub-function is reserved (R61). -/
  | reservedFunction (icode ifun : Nibble)
  /-- The class carries a register byte and there is none (R63). -/
  | noRegisterByte
  /-- The class carries an immediate and there are not eight bytes of it (R63). -/
  | noImmediate
deriving DecidableEq, Repr

/-- What decoding bytes answers: a value and the bytes after it, or a named rejection. -/
inductive Decoded (α : Type)
  | ok (x : α) (rest : List Byte)
  | reject (r : Reject)
deriving DecidableEq, Repr

/-- The register byte, where the class carries one: the two ids and the bytes after it; both ids are 15 otherwise (R52). -/
def takeRegs (icode : Nibble) (bs : List Byte) : Option (Nibble × Nibble × List Byte) :=
  if needRegs icode then
    match bs with
    | [] => none
    | b :: bs => some (hiNibble b, loNibble b, bs)
  else some (15, 15, bs)

/-- The immediate, where the class carries one: its value and the bytes after it; 0 otherwise (R53). -/
def takeImm (icode : Nibble) (bs : List Byte) : Option (Word × List Byte) :=
  if needImm icode then
    match bs with
    | b0 :: b1 :: b2 :: b3 :: b4 :: b5 :: b6 :: b7 :: bs => some (wordOfBytes b0 b1 b2 b3 b4 b5 b6 b7, bs)
    | _ => none
  else some (0, bs)

/-- The fields of the instruction at the head of the bytes, with the tests in the order of R63: opcode byte, class range,
sub-function, register byte, immediate. (Class 0 is `halt`, whose meaning raises `HLT`.) -/
def decodeFields : List Byte → Decoded Fields
  | [] => .reject .noOpcode
  | b :: bs =>
    if 11 < (hiNibble b).toNat then .reject (.invalidClass (hiNibble b))
    else if reservedFn (hiNibble b) (loNibble b) then .reject (.reservedFunction (hiNibble b) (loNibble b))
    else match takeRegs (hiNibble b) bs with
      | none => .reject .noRegisterByte
      | some (rA, rB, bs) =>
        match takeImm (hiNibble b) bs with
        | none => .reject .noImmediate
        | some (valC, rest) => .ok ⟨hiNibble b, loNibble b, rA, rB, valC⟩ rest

/-- The class-2 instruction of a condition (R58). -/
def Instr.ofMove : Cond → RegId → RegId → Instr
  | .always => .rrmovq
  | .le => .cmovle
  | .l => .cmovl
  | .e => .cmove
  | .ne => .cmovne
  | .ge => .cmovge
  | .g => .cmovg

/-- The class-7 instruction of a condition (R58). -/
def Instr.ofJump : Cond → Word → Instr
  | .always => .jmp
  | .le => .jle
  | .l => .jl
  | .e => .je
  | .ne => .jne
  | .ge => .jge
  | .g => .jg

/-- The class-6 instruction of an ALU function (R57). -/
def Instr.ofAlu : AluFn → RegId → RegId → Instr
  | .add => .addq
  | .sub => .subq
  | .and => .andq
  | .xor => .xorq

/-- The instruction that fields stand for (R55, R57, R58). The sub-function is read in classes 2, 6 and 7 only (R59), rA is
ignored in class 3 and rB in classes 10 and 11 (R62). -/
def Fields.instr? (f : Fields) : Option Instr :=
  match f.icode.toNat with
  | 0 => some .halt
  | 1 => some .nop
  | 2 => (Cond.ofFn f.ifun).map fun c => Instr.ofMove c (.ofNibble f.rA) (.ofNibble f.rB)
  | 3 => some (.irmovq f.valC (.ofNibble f.rB))
  | 4 => some (.rmmovq (.ofNibble f.rA) f.valC (.ofNibble f.rB))
  | 5 => some (.mrmovq f.valC (.ofNibble f.rB) (.ofNibble f.rA))
  | 6 => (AluFn.ofFn f.ifun).map fun fn => Instr.ofAlu fn (.ofNibble f.rA) (.ofNibble f.rB)
  | 7 => (Cond.ofFn f.ifun).map fun c => Instr.ofJump c f.valC
  | 8 => some (.call f.valC)
  | 9 => some .ret
  | 10 => some (.pushq (.ofNibble f.rA))
  | 11 => some (.popq (.ofNibble f.rA))
  | _ => none

/-- The decoder: the instruction at the head of the bytes and the bytes after it, or a named rejection (R63, R64). -/
def decode (bs : List Byte) : Decoded Instr :=
  match decodeFields bs with
  | .reject r => .reject r
  | .ok f rest =>
    match f.instr? with
    | some i => .ok i rest
    | none => .reject (.reservedFunction f.icode f.ifun)

/-! ## The encoder -/

/-- The fields an assembler gives an instruction (R65): sub-function 0 where it is ignored (R59), 15 in an unused register
nibble (R62). -/
def Instr.fields : Instr → Fields
  | .halt => ⟨0, 0, 15, 15, 0⟩
  | .nop => ⟨1, 0, 15, 15, 0⟩
  | .rrmovq rA rB => ⟨2, 0, rA.nibble, rB.nibble, 0⟩
  | .cmovle rA rB => ⟨2, 1, rA.nibble, rB.nibble, 0⟩
  | .cmovl rA rB => ⟨2, 2, rA.nibble, rB.nibble, 0⟩
  | .cmove rA rB => ⟨2, 3, rA.nibble, rB.nibble, 0⟩
  | .cmovne rA rB => ⟨2, 4, rA.nibble, rB.nibble, 0⟩
  | .cmovge rA rB => ⟨2, 5, rA.nibble, rB.nibble, 0⟩
  | .cmovg rA rB => ⟨2, 6, rA.nibble, rB.nibble, 0⟩
  | .irmovq imm rB => ⟨3, 0, 15, rB.nibble, imm⟩
  | .rmmovq rA disp rB => ⟨4, 0, rA.nibble, rB.nibble, disp⟩
  | .mrmovq disp rB rA => ⟨5, 0, rA.nibble, rB.nibble, disp⟩
  | .addq rA rB => ⟨6, 0, rA.nibble, rB.nibble, 0⟩
  | .subq rA rB => ⟨6, 1, rA.nibble, rB.nibble, 0⟩
  | .andq rA rB => ⟨6, 2, rA.nibble, rB.nibble, 0⟩
  | .xorq rA rB => ⟨6, 3, rA.nibble, rB.nibble, 0⟩
  | .jmp dest => ⟨7, 0, 15, 15, dest⟩
  | .jle dest => ⟨7, 1, 15, 15, dest⟩
  | .jl dest => ⟨7, 2, 15, 15, dest⟩
  | .je dest => ⟨7, 3, 15, 15, dest⟩
  | .jne dest => ⟨7, 4, 15, 15, dest⟩
  | .jge dest => ⟨7, 5, 15, 15, dest⟩
  | .jg dest => ⟨7, 6, 15, 15, dest⟩
  | .call dest => ⟨8, 0, 15, 15, dest⟩
  | .ret => ⟨9, 0, 15, 15, 0⟩
  | .pushq rA => ⟨10, 0, rA.nibble, 15, 0⟩
  | .popq rA => ⟨11, 0, rA.nibble, 15, 0⟩

/-- An instruction is well formed when the fields it is encoded with are. -/
def Instr.wellFormed (i : Instr) : Bool := i.fields.wellFormed

/-- An instruction's length in bytes (R56). -/
def Instr.length (i : Instr) : Nat := lengthOfClass i.fields.icode

/-- The bytes of encoded fields, lowest address first (R50 to R54). -/
def encodeFields (f : Fields) : List Byte :=
  byteOfNibbles f.icode f.ifun ::
    ((if needRegs f.icode then [byteOfNibbles f.rA f.rB] else []) ++
     (if needImm f.icode then bytesOfWord f.valC else []))

/-- The canonical bytes of an instruction, lowest address first (R65). -/
def encode (i : Instr) : List Byte := encodeFields i.fields

/-! ## The decoder on a word of the opcode table -/

/-- The bytes, in memory order, of an instruction whose bits are `w`, bit 0 the least significant bit of the first byte:
`nbits` bits of it, and above them zeros up to the longest instruction, ten bytes (R50). -/
def bytesOfTableWord (nbits w : Nat) : List Byte :=
  (List.range 10).map fun k => BitVec.ofNat 8 ((w % 2 ^ nbits) / 2 ^ (8 * k))

/-- The instruction the decoder reads from a word of spec/opcode_table.json. -/
def decodeTableWord (nbits w : Nat) : Option Instr :=
  match decode (bytesOfTableWord nbits w) with
  | .ok i _ => some i
  | .reject _ => none

end Sys2Proof
end

