-- ==== Sys2Proof/Config.lean ====
section
/-!
DEFINITION. What an implementation of this hardware fixes (spec/00_scope.md rule R5, spec/92_eei_decisions.md section 6):
the memory capacity and the treatment of the reserved sub-functions. The third parameter of that section, the stack
pointer's id, is the named constant `Machine.rsp` (Machine/Operands.lean).

A `Config` value is carried in `Machine.State` as the field `cfg` and no step writes it, so that one model is the machine
at EVERY capacity and under BOTH policies, and a claim about every state is a claim about all of them (log entry 1).
This hardware has no free value: spec/93_implementation_defined.md treats nothing as "any value".
-/

namespace Sys2Proof

/-- `RESERVED_FN_POLICY` (spec/30_encoding.md rule R61): what a reserved sub-function of classes 2, 6 and 7 does. -/
inductive ReservedFnPolicy
  /-- The default: the machine's behaviour is not defined, and the step is refused by name. -/
  | refuse
  /-- The cycle raises `INS` at decode. -/
  | insFault
deriving DecidableEq, Repr

/-- The parameters of the hardware (R5). -/
structure Config where
  /-- `MEM_CAPACITY`, written C: the number of bytes of memory; valid addresses are 0 to C-1. -/
  capacity : Nat
  /-- `RESERVED_FN_POLICY`. -/
  reservedPolicy : ReservedFnPolicy
deriving DecidableEq, Repr

/-- The reference sizing and the default policy (R5): 65536 bytes, `refuse`. -/
def Config.reference : Config := { capacity := 65536, reservedPolicy := .refuse }

/-- The constraint the spec puts on the capacity (R5): 1 <= C <= 2^63. -/
abbrev Config.wf (c : Config) : Prop := 1 ≤ c.capacity ∧ c.capacity ≤ 2 ^ 63

end Sys2Proof
end

