-- ==== Sys2Proof/Machine/State.lean ====
section
/-!
DEFINITION. The state of the machine (spec/10_state.md rule R10: the register file, the three condition codes, the program
counter, the status register and memory), the reasons a step can stop without a next state, and the state after reset
(R26). The parameters of R5 stand in the state as `cfg`, which no step writes (log entry 1).
-/

namespace Sys2Proof.Machine

/-- The status register (R21). -/
inductive Status
  /-- Continuing. -/
  | aok
  /-- Halted (R171). -/
  | hlt
  /-- Address fault (R172). -/
  | adr
  /-- Invalid instruction (R173). -/
  | ins
deriving DecidableEq, Repr

/-- The condition codes ZF, SF, OF (R19). -/
structure Flags where
  zf : Bool
  sf : Bool
  of : Bool
deriving DecidableEq, Repr

/-- Memory: the bytes that differ from what an unlisted address reads as, by rising address (`Memory.wf`). -/
abbrev Memory := List Host.Cell

/-- What an unlisted address reads as: memory is zero-filled at construction (R26). -/
def Memory.unlisted : Byte := 0

/-- The canonical form of a memory: addresses strictly rising, and no entry equal to what an unlisted address reads as. -/
abbrev Memory.wf (m : Memory) : Prop :=
  m.Pairwise (fun c d => c.1 < d.1) ∧ ∀ c ∈ m, c.2 ≠ Memory.unlisted

/-- The state of the machine: the five things of R10 (registers, condition codes, `pc`, status, memory), and its parameters. -/
structure State where
  /-- The 15 general registers, ids 0 to 14 (R11). -/
  regs : Vector Word 15
  /-- The condition codes (R19). -/
  flags : Flags
  /-- The program counter: the address of the first byte of the next instruction (R16). -/
  pc : Word
  /-- The status register (R21). -/
  status : Status
  /-- Memory, addresses 0 to `cfg.capacity` - 1 (R23). -/
  mem : Memory
  /-- The parameters of the hardware (R5): fixed for a machine, written by no step. -/
  cfg : Config
deriving DecidableEq, Repr

/-- The faults that stop the machine without a next state: this hardware has none. Every stop the spec gives it (`HLT`,
`ADR`, `INS`) is a value of the status register in a next state (R170, R175), after which a step changes nothing (R193). -/
inductive Fault
deriving DecidableEq, Repr

/-- The reasons the model has no outcome for a step. -/
inductive Refusal
  /-- Raised by an arm of `exec` for an instruction that has no meaning yet; no arm does so. Safe. -/
  | notModelled (mnemonic : String)
  /-- Raised by `step` where the opcode byte is one of the 30 reserved ones and the policy is `refuse`: "the step has no
  outcome the model vouches for" (R61). Safe: the model stops where hardware may go on. -/
  | reservedFunction (icode ifun : Nibble)
deriving DecidableEq, Repr

/-- The machine right after reset (R26), for given parameters: every field at the value the spec states. -/
def State.resetWith (cfg : Config) : State where
  regs := Vector.replicate 15 0
  flags := { zf := true, sf := false, of := false }
  pc := 0
  status := .aok
  mem := []
  cfg := cfg

/-- The machine right after reset, at the reference sizing and the default policy (R5, R26). -/
def State.reset : State := State.resetWith Config.reference

end Sys2Proof.Machine
end

