-- ==== Sys2Proof/Machine/Flags.lean ====
section
/-!
DEFINITION. The ALU, the condition codes it produces and the branch conditions that read them (spec/40_cycle.md rules R74,
R75, R76).
-/

namespace Sys2Proof.Machine

/-- The ALU result `valE` (R74); `a` is the first input (`aluA`), `b` the second (`aluB`). The sum's order does not matter;
the constant inputs of R73 are first inputs, and the kernel reduces a constant that stands first without unfolding it. -/
def aluResult (fn : AluFn) (a b : Word) : Word :=
  match fn with
  | .add => a + b
  | .sub => b - a
  | .and => b &&& a
  | .xor => b ^^^ a

/-- The overflow flag (R75), from the operands' sign bits and the result's. -/
def aluOverflow (fn : AluFn) (a b : Word) : Bool :=
  match fn with
  | .add => a.msb == b.msb && (a + b).msb != a.msb
  | .sub => a.msb != b.msb && (b - a).msb == a.msb
  | .and => false
  | .xor => false

/-- The three condition codes of an ALU operation (R75). -/
def aluFlags (fn : AluFn) (a b : Word) : Flags where
  zf := aluResult fn a b == 0
  sf := (aluResult fn a b).msb
  of := aluOverflow fn a b

/-- The branch condition `Cond(fn)` on the flags (R76). -/
def condHolds (c : Cond) (f : Flags) : Bool :=
  match c with
  | .always => true
  | .le => (f.sf ^^ f.of) || f.zf
  | .l => f.sf ^^ f.of
  | .e => f.zf
  | .ne => !f.zf
  | .ge => !(f.sf ^^ f.of)
  | .g => !(f.sf ^^ f.of) && !f.zf

end Sys2Proof.Machine
end

