-- ==== Sys2Proof/Machine/Ops.lean ====
section
/-!
DEFINITION. The named operations over memory, registers and the program counter; taking an exceptional stop
(spec/60_exceptions.md rule R175), ONE operation for every instruction; and the bytes a fetch sees.

There is no return from an exception to stand beside it: "There is no return-from-trap instruction. A terminal status is
left only by reset" (R177); reset is `State.resetWith`.
-/

namespace Sys2Proof.Machine

/-! ## Bytes of memory (R23, R37) -/

/-- The byte at an address. -/
def Memory.get : Memory → Nat → Byte
  | [], _ => Memory.unlisted
  | c :: m, a => if c.1 = a then c.2 else Memory.get m a

/-- The memory without the entry of an address. -/
def Memory.erase (m : Memory) (a : Nat) : Memory := m.filter fun c => c.1 ≠ a

/-- An entry put in its place by address. -/
def Memory.insert (a : Nat) (b : Byte) : Memory → Memory
  | [] => [(a, b)]
  | c :: m => if a < c.1 then (a, b) :: c :: m else c :: Memory.insert a b m

/-- One byte written, the canonical form kept: writing what an unlisted address reads as removes the entry. -/
def Memory.set (m : Memory) (a : Nat) (b : Byte) : Memory :=
  if b = Memory.unlisted then m.erase a else Memory.insert a b (m.erase a)

/-- Bytes written at consecutive addresses, lowest first. -/
def Memory.setBytes (m : Memory) (a : Nat) : List Byte → Memory
  | [] => m
  | b :: bs => Memory.setBytes (m.set a b) (a + 1) bs

/-- The 64-bit value at an address, little-endian (R32, n = 8). -/
def Memory.getWord (m : Memory) (a : Nat) : Word :=
  wordOfBytes (m.get a) (m.get (a + 1)) (m.get (a + 2)) (m.get (a + 3))
    (m.get (a + 4)) (m.get (a + 5)) (m.get (a + 6)) (m.get (a + 7))

/-- A 64-bit value stored at an address, little-endian (R33). -/
def Memory.setWord (m : Memory) (a : Nat) (v : Word) : Memory := m.setBytes a (bytesOfWord v)

/-! ## Bounds-checked access (R31 to R33) -/

/-- The bounds check: `a + n <= C` on unbounded integers (R31). -/
def inBounds (s : State) (a : Word) (n : Nat) : Bool := a.toNat + n ≤ s.cfg.capacity

/-- `MemRead(a, 1)` (R32), `none` where the bounds check fails. -/
def memRead1 (s : State) (a : Word) : Option Byte :=
  if inBounds s a 1 then some (s.mem.get a.toNat) else none

/-- `MemRead(a, 8)` (R32), `none` where the bounds check fails. -/
def memRead8 (s : State) (a : Word) : Option Word :=
  if inBounds s a 8 then some (s.mem.getWord a.toNat) else none

/-- `MemWrite(a, 8, v)` (R33), `none` where the bounds check fails. -/
def memWrite8 (s : State) (a v : Word) : Option State :=
  if inBounds s a 8 then some { s with mem := s.mem.setWord a.toNat v } else none

/-! ## Registers, flags and the program counter -/

/-- Register read `x[r]` (R7, R13): "none" reads as 0. -/
def readReg (s : State) : RegId → Word
  | .slot i => s.regs[i]
  | .none => 0

/-- Register write `x[r] <- v` (R7, R13): a write to "none" changes nothing. -/
def writeReg (s : State) (r : RegId) (v : Word) : State :=
  match r with
  | .slot i => { s with regs := s.regs.set i v }
  | .none => s

/-- All three condition codes written together (R19). -/
def setFlags (s : State) (f : Flags) : State := { s with flags := f }

/-- `pc <- target`, unchecked (R18, R80). -/
def setPc (s : State) (target : Word) : State := { s with pc := target }

/-! ## Taking an exceptional stop -/

/-- `raise <Status>` (R7, R175): the status is set and no other state is written, so `pc` keeps the address of the stopping
instruction (R17). Control goes nowhere: there is no handler, no vector, no saved state and no mode (R174, R175). -/
def raise (s : State) (st : Status) : State := { s with status := st }

/-- A load of the memory stage (R78): the value read at `a` goes to `k`; a failed bounds check raises `ADR` (R172). -/
def withLoad (s : State) (a : Word) (k : Word → State) : State :=
  match memRead8 s a with
  | none => raise s .adr
  | some v => k v

/-- A store of the memory stage (R78): `v` is written at `a` and `k` is applied; a failed bounds check raises `ADR` (R172). -/
def withStore (s : State) (a v : Word) (k : State → State) : State :=
  match memWrite8 s a v with
  | none => raise s .adr
  | some t => k t

/-! ## The instruction stream (R63, R71) -/

/-- At most `n` bytes from address `a` on, as far as memory goes. -/
def bytesAt (s : State) (a : Nat) : Nat → List Byte
  | 0 => []
  | n + 1 => if a < s.cfg.capacity then s.mem.get a :: bytesAt s (a + 1) n else []

/-- The bytes the decoder may read at `pc`: up to ten, the longest instruction (R50). A byte at or above C is not there. -/
def fetchBytes (s : State) : List Byte := bytesAt s s.pc.toNat 10

/-- The instruction cycle runs only while the status is `AOK` (R22, R193). -/
def running (s : State) : Bool := s.status = .aok

/-- What a cycle does when decoding rejects the bytes at `pc` (R63, R172, R173): a byte outside memory raises `ADR`, an
undefined class raises `INS`, and a reserved sub-function follows `RESERVED_FN_POLICY` (R61). -/
def rejectCycle (r : Reject) (s : State) : Host.Outcome State Fault Refusal :=
  match r with
  | .noOpcode => .next (raise s .adr)
  | .noRegisterByte => .next (raise s .adr)
  | .noImmediate => .next (raise s .adr)
  | .invalidClass _ => .next (raise s .ins)
  | .reservedFunction icode ifun =>
    match s.cfg.reservedPolicy with
    | .refuse => .refused (.reservedFunction icode ifun)
    | .insFault => .next (raise s .ins)

/-- Bytes stored from an address on; those that would fall outside memory are dropped (R191). -/
def placeBytes (s : State) (a : Nat) (bs : List Byte) : State :=
  { s with mem := s.mem.setBytes a (bs.take (s.cfg.capacity - a)) }

/-- The state made to fetch the given bytes next: they stand at `pc`, and the machine is running. -/
def placeProgram (s : State) (bs : List Byte) : State := placeBytes { s with status := .aok } s.pc.toNat bs

end Sys2Proof.Machine
end

