-- ==== Sys2Proof/Machine/Operands.lean ====
section
/-!
DEFINITION. The operand forms: the stack pointer, the one addressing mode, the addresses of the stack instructions, and the
sequential next address.
-/

namespace Sys2Proof.Machine

/-- The stack pointer's register id, `RSP` = 4 (R5, R14): the only register the hardware treats specially. -/
def rsp : RegId := .slot 4

/-- The sequential next address `valP`: the byte after an instruction of the given length (R71). -/
def seqPc (s : State) (length : Nat) : Word := s.pc + BitVec.ofNat 64 length

/-- Base plus displacement (R120): `(valC + x[rB]) mod 2^64`; the base "none" gives the absolute address. -/
def effectiveAddress (s : State) (disp : Word) (rB : RegId) : Word := disp + readReg s rB

/-- Where push and call store, and the stack pointer they leave: `-8 + x[RSP]` (R150, R160). -/
def pushAddress (s : State) : Word := BitVec.ofInt 64 (-8) + readReg s rsp

/-- Where pop and return read: the stack pointer before the update (R151, R161). -/
def popAddress (s : State) : Word := readReg s rsp

/-- The stack pointer that pop and return leave: `x[RSP] + 8` (R151, R161). -/
def poppedPointer (s : State) : Word := readReg s rsp + 8

/-- The address an instruction stores eight bytes at, for the three instructions that store (R36, R78). -/
def storeAddress? (i : Instr) (s : State) : Option Word :=
  match i with
  | .rmmovq _ disp rB => some (effectiveAddress s disp rB)
  | .call _ => some (pushAddress s)
  | .pushq _ => some (pushAddress s)
  | _ => none

/-- The eight bytes an instruction stores: a register's value, or the return address for call (R78). -/
def storeData? (i : Instr) (s : State) : Option Word :=
  match i with
  | .rmmovq rA _ _ => some (readReg s rA)
  | .call _ => some (seqPc s 9)
  | .pushq rA => some (readReg s rA)
  | _ => none

/-- The address an instruction loads eight bytes from, for the three instructions that load (R36, R78). -/
def loadAddress? (i : Instr) (s : State) : Option Word :=
  match i with
  | .mrmovq disp rB _ => some (effectiveAddress s disp rB)
  | .ret => some (popAddress s)
  | .popq _ => some (popAddress s)
  | _ => none

end Sys2Proof.Machine
end

