-- ==== Sys2Proof/Machine/Alu.lean ====
section
/-!
DEFINITION. Class 6 (spec/44_alu.md): arithmetic and logic, the only writers of the condition codes.
-/

namespace Sys2Proof.Machine

/-- The common semantics of class 6 (R130): `aluA = x[rA]`, `aluB = x[rB]`, both read before anything is written; the flags
are written also where the destination is "none". -/
def aluOp (fn : AluFn) (rA rB : RegId) (s : State) : State :=
  setPc
    (writeReg (setFlags s (aluFlags fn (readReg s rA) (readReg s rB))) rB
      (aluResult fn (readReg s rA) (readReg s rB)))
    (seqPc s 2)

/-- `addq rA, rB` (R131): `x[rB] <- x[rB] + x[rA]`. -/
def execAddq (rA rB : RegId) (s : State) : Host.Outcome State Fault Refusal := .next (aluOp .add rA rB s)

/-- `subq rA, rB` (R132): `x[rB] <- x[rB] - x[rA]`. -/
def execSubq (rA rB : RegId) (s : State) : Host.Outcome State Fault Refusal := .next (aluOp .sub rA rB s)

/-- `andq rA, rB` (R133): `x[rB] <- x[rB] & x[rA]`. -/
def execAndq (rA rB : RegId) (s : State) : Host.Outcome State Fault Refusal := .next (aluOp .and rA rB s)

/-- `xorq rA, rB` (R134): `x[rB] <- x[rB] ^ x[rA]`. -/
def execXorq (rA rB : RegId) (s : State) : Host.Outcome State Fault Refusal := .next (aluOp .xor rA rB s)

end Sys2Proof.Machine
end

