-- ==== Sys2Proof/Machine/CallRet.lean ====
section
/-!
DEFINITION. Classes 8 and 9 (spec/46_call_ret.md): call and return.
-/

namespace Sys2Proof.Machine

/-- `call Dest` (R150): the return address `valP = pc + 9` is stored at `x[RSP] - 8`, the stack pointer is lowered to that
address and `pc <- Dest`; or `ADR` with nothing changed. -/
def execCall (dest : Word) (s : State) : Host.Outcome State Fault Refusal :=
  .next (withStore s (pushAddress s) (seqPc s 9) fun t => setPc (writeReg t rsp (pushAddress s)) dest)

/-- `ret` (R151): the eight bytes at the old `x[RSP]` become `pc`, unchecked, and the stack pointer is raised by 8; or `ADR`
with nothing changed. -/
def execRet (s : State) : Host.Outcome State Fault Refusal :=
  .next (withLoad s (popAddress s) fun v => setPc (writeReg s rsp (poppedPointer s)) v)

end Sys2Proof.Machine
end

