-- ==== Sys2Proof/Machine/HaltNop.lean ====
section
/-!
DEFINITION. Classes 0 and 1 (spec/41_halt_nop.md).
-/

namespace Sys2Proof.Machine

/-- `halt` (R100): `status <- HLT` and nothing else; `pc` keeps the address of the `halt` byte. -/
def execHalt (s : State) : Host.Outcome State Fault Refusal := .next (raise s .hlt)

/-- `nop` (R101): `pc <- pc + 1`. -/
def execNop (s : State) : Host.Outcome State Fault Refusal := .next (setPc s (seqPc s 1))

end Sys2Proof.Machine
end

