-- ==== Sys2Proof/Machine/Jumps.lean ====
section
/-!
DEFINITION. Class 7 (spec/45_jumps.md): the jumps. Targets are absolute and are not checked when they are written to `pc`.
-/

namespace Sys2Proof.Machine

/-- The common semantics of class 7 (R140): `pc <- valC if Cnd else pc + 9`. -/
def jumpIf (c : Cond) (dest : Word) (s : State) : State :=
  setPc s (if condHolds c s.flags then dest else seqPc s 9)

/-- `jmp Dest` (R141). -/
def execJmp (dest : Word) (s : State) : Host.Outcome State Fault Refusal := .next (jumpIf .always dest s)

/-- `jle Dest` (R142). -/
def execJle (dest : Word) (s : State) : Host.Outcome State Fault Refusal := .next (jumpIf .le dest s)

/-- `jl Dest` (R143). -/
def execJl (dest : Word) (s : State) : Host.Outcome State Fault Refusal := .next (jumpIf .l dest s)

/-- `je Dest` (R144). -/
def execJe (dest : Word) (s : State) : Host.Outcome State Fault Refusal := .next (jumpIf .e dest s)

/-- `jne Dest` (R145). -/
def execJne (dest : Word) (s : State) : Host.Outcome State Fault Refusal := .next (jumpIf .ne dest s)

/-- `jge Dest` (R146). -/
def execJge (dest : Word) (s : State) : Host.Outcome State Fault Refusal := .next (jumpIf .ge dest s)

/-- `jg Dest` (R147). -/
def execJg (dest : Word) (s : State) : Host.Outcome State Fault Refusal := .next (jumpIf .g dest s)

end Sys2Proof.Machine
end

