-- ==== Sys2Proof/Machine/LoadStore.lean ====
section
/-!
DEFINITION. Classes 4 and 5 (spec/43_load_store.md): the memory store and the memory load.
-/

namespace Sys2Proof.Machine

/-- `rmmovq rA, D(rB)` (R121): eight bytes of `x[rA]` at `D + x[rB]`, or `ADR` with nothing written. -/
def execRmmovq (rA : RegId) (disp : Word) (rB : RegId) (s : State) : Host.Outcome State Fault Refusal :=
  .next (withStore s (effectiveAddress s disp rB) (readReg s rA) fun t => setPc t (seqPc s 10))

/-- `mrmovq D(rB), rA` (R122): `x[rA]` from the eight bytes at `D + x[rB]`, or `ADR` with nothing written. -/
def execMrmovq (disp : Word) (rB rA : RegId) (s : State) : Host.Outcome State Fault Refusal :=
  .next (withLoad s (effectiveAddress s disp rB) fun v => setPc (writeReg s rA v) (seqPc s 10))

end Sys2Proof.Machine
end

