-- ==== Sys2Proof/Machine/Moves.lean ====
section
/-!
DEFINITION. Classes 2 and 3 (spec/42_moves.md): register moves, conditional moves and the immediate move.
-/

namespace Sys2Proof.Machine

/-- The common semantics of class 2 (R110): the destination degrades to "none" when the condition is false, and `pc`
advances by 2 either way. -/
def moveIf (c : Cond) (rA rB : RegId) (s : State) : State :=
  setPc (writeReg s (if condHolds c s.flags then rB else .none) (readReg s rA)) (seqPc s 2)

/-- `rrmovq rA, rB` (R111). -/
def execRrmovq (rA rB : RegId) (s : State) : Host.Outcome State Fault Refusal := .next (moveIf .always rA rB s)

/-- `cmovle rA, rB` (R112). -/
def execCmovle (rA rB : RegId) (s : State) : Host.Outcome State Fault Refusal := .next (moveIf .le rA rB s)

/-- `cmovl rA, rB` (R113). -/
def execCmovl (rA rB : RegId) (s : State) : Host.Outcome State Fault Refusal := .next (moveIf .l rA rB s)

/-- `cmove rA, rB` (R114). -/
def execCmove (rA rB : RegId) (s : State) : Host.Outcome State Fault Refusal := .next (moveIf .e rA rB s)

/-- `cmovne rA, rB` (R115). -/
def execCmovne (rA rB : RegId) (s : State) : Host.Outcome State Fault Refusal := .next (moveIf .ne rA rB s)

/-- `cmovge rA, rB` (R116). -/
def execCmovge (rA rB : RegId) (s : State) : Host.Outcome State Fault Refusal := .next (moveIf .ge rA rB s)

/-- `cmovg rA, rB` (R117). -/
def execCmovg (rA rB : RegId) (s : State) : Host.Outcome State Fault Refusal := .next (moveIf .g rA rB s)

/-- `irmovq $V, rB` (R118): `x[rB] <- V ; pc <- pc + 10`. -/
def execIrmovq (imm : Word) (rB : RegId) (s : State) : Host.Outcome State Fault Refusal :=
  .next (setPc (writeReg s rB imm) (seqPc s 10))

end Sys2Proof.Machine
end

