-- ==== Sys2Proof/Machine/PushPop.lean ====
section
/-!
DEFINITION. Classes 10 and 11 (spec/47_push_pop.md): push and pop.
-/

namespace Sys2Proof.Machine

/-- `pushq rA` (R160): `x[rA]`, read before the decrement, is stored at `x[RSP] - 8` and the stack pointer is lowered to that
address; or `ADR` with nothing changed. -/
def execPushq (rA : RegId) (s : State) : Host.Outcome State Fault Refusal :=
  .next (withStore s (pushAddress s) (readReg s rA) fun t =>
    setPc (writeReg t rsp (pushAddress s)) (seqPc s 2))

/-- `popq rA` (R161): the stack pointer is raised by 8 first and the value read at the old stack pointer is written to rA
second, so `popq %rsp` leaves the popped value (R79); or `ADR` with nothing changed. -/
def execPopq (rA : RegId) (s : State) : Host.Outcome State Fault Refusal :=
  .next (withLoad s (popAddress s) fun v =>
    setPc (writeReg (writeReg s rsp (poppedPointer s)) rA v) (seqPc s 2))

end Sys2Proof.Machine
end

