-- ==== Sys2Proof/Machine/Step.lean ====
section
/-!
DEFINITION. One step of the machine: one cycle of spec/40_cycle.md rule R82 while the status is `AOK`, nothing otherwise
(spec/70_reset_and_hazards.md rule R193). Everything a cycle does is in the operations it calls: the bytes at `pc`
(`fetchBytes`), the decoder, the instruction's meaning, and what a rejection does (`rejectCycle`).
-/

namespace Sys2Proof.Machine

/-- One step (R82, R193). -/
def step (s : State) : Host.Outcome State Fault Refusal :=
  if running s then
    match decode (fetchBytes s) with
    | .ok i _ => exec i s
    | .reject r => rejectCycle r s
  else .next s

/-- The state with a word of spec/opcode_table.json as the next instruction: its ten bytes (zeros above `nbits`) stand at
`pc`, where the fetch reads, and the status is `AOK`, which a cycle needs. -/
def State.withFetchWord (s : State) (nbits w : Nat) : State := placeProgram s (bytesOfTableWord nbits w)

end Sys2Proof.Machine
end

