-- ==== Sys2Proof/Machine/Cycle.lean ====
section
/-!
DEFINITION. The cycle by its control table: spec/40_cycle.md rules R70 to R83 transcribed stage by stage, class by class. The
spec says that this table governs and that the family files must agree with it; the meanings of Machine/<Family>.lean are
written from the family files, and that both are one machine is a statement (`Obligations.ExecIsControlTableCycle`).
`step` does not use this file.
-/

namespace Sys2Proof.Machine

/-- The registers a source or a destination can be (R72, R77). -/
inductive RegSel
  /-- The decoded field rA. -/
  | rA
  /-- The decoded field rB. -/
  | rB
  /-- The stack pointer. -/
  | rsp
  /-- No register. -/
  | none
deriving DecidableEq, Repr

/-- The options of the first ALU input (R73). -/
inductive AluASel
  | valA | valC | minus8 | plus8
deriving DecidableEq, Repr

/-- The options of the second ALU input (R73). -/
inductive AluBSel
  | valB | zero
deriving DecidableEq, Repr

/-- The options of the memory stage (R78): which access, at which address, of which data. -/
inductive MemSel
  /-- No access. -/
  | idle
  /-- A read at the ALU result. -/
  | readValE
  /-- A read at source A's value. -/
  | readValA
  /-- A write at the ALU result, of source A's value. -/
  | writeValA
  /-- A write at the ALU result, of the return address. -/
  | writeValP
deriving DecidableEq, Repr

/-- The options of the new `pc` (R80). -/
inductive PcSel
  /-- Not written: the class halts. -/
  | halts
  /-- The sequential address. -/
  | valP
  /-- The immediate. -/
  | valC
  /-- The value read from memory. -/
  | valM
  /-- The immediate if the branch condition holds, else the sequential address. -/
  | valCIfCnd
deriving DecidableEq, Repr

/-- One row of the control table (R83). -/
structure Control where
  srcA : RegSel
  srcB : RegSel
  aluA : AluASel
  aluB : AluBSel
  writesFlags : Bool
  dstE : RegSel
  dstM : RegSel
  mem : MemSel
  newPc : PcSel
deriving DecidableEq, Repr

/-- The control table (R83), by class. Where the table's cell is "-" the ALU result is discarded (`dstE` is none). -/
def controlTable (icode : Nibble) : Control :=
  match icode.toNat with
  | 1 => ⟨.none, .none, .valA, .zero, false, .none, .none, .idle, .valP⟩
  | 2 => ⟨.rA, .none, .valA, .zero, false, .rB, .none, .idle, .valP⟩
  | 3 => ⟨.none, .none, .valC, .zero, false, .rB, .none, .idle, .valP⟩
  | 4 => ⟨.rA, .rB, .valC, .valB, false, .none, .none, .writeValA, .valP⟩
  | 5 => ⟨.none, .rB, .valC, .valB, false, .none, .rA, .readValE, .valP⟩
  | 6 => ⟨.rA, .rB, .valA, .valB, true, .rB, .none, .idle, .valP⟩
  | 7 => ⟨.none, .none, .valA, .zero, false, .none, .none, .idle, .valCIfCnd⟩
  | 8 => ⟨.none, .rsp, .minus8, .valB, false, .rsp, .none, .writeValP, .valC⟩
  | 9 => ⟨.rsp, .rsp, .plus8, .valB, false, .rsp, .none, .readValA, .valM⟩
  | 10 => ⟨.rA, .rsp, .minus8, .valB, false, .rsp, .none, .writeValA, .valP⟩
  | 11 => ⟨.rsp, .rsp, .plus8, .valB, false, .rsp, .rA, .readValA, .valP⟩
  | _ => ⟨.none, .none, .valA, .zero, false, .none, .none, .idle, .halts⟩

/-- The register a selector names in an instruction's fields. -/
def selectReg (f : Fields) : RegSel → RegId
  | .rA => .ofNibble f.rA
  | .rB => .ofNibble f.rB
  | .rsp => rsp
  | .none => .none

/-- The first ALU input (R73). -/
def selectAluA (valA valC : Word) : AluASel → Word
  | .valA => valA
  | .valC => valC
  | .minus8 => BitVec.ofInt 64 (-8)
  | .plus8 => 8

/-- The second ALU input (R73). -/
def selectAluB (valB : Word) : AluBSel → Word
  | .valB => valB
  | .zero => 0

/-- The ALU function (R74): the sub-function in class 6, addition in every other class. -/
def selectAluFn (f : Fields) : AluFn :=
  if f.icode.toNat = 6 then (AluFn.ofFn f.ifun).getD .add else .add

/-- The branch condition `Cnd` (R76), from the flags at the start of the cycle. -/
def selectCnd (f : Fields) (s : State) : Bool := condHolds ((Cond.ofFn f.ifun).getD .always) s.flags

/-- The ALU-path destination (R77): in class 2 it degrades to "none" when the condition is false. -/
def selectDstE (f : Fields) (s : State) : RegId :=
  if f.icode.toNat = 2 ∧ selectCnd f s = false then .none else selectReg f (controlTable f.icode).dstE

/-- The memory stage (R78): the state after it and the value read, or `none` where the bounds check fails. -/
def memoryStage (s : State) (valA valE valP : Word) : MemSel → Option (State × Word)
  | .idle => some (s, 0)
  | .readValE => (memRead8 s valE).map fun v => (s, v)
  | .readValA => (memRead8 s valA).map fun v => (s, v)
  | .writeValA => (memWrite8 s valE valA).map fun t => (t, 0)
  | .writeValP => (memWrite8 s valE valP).map fun t => (t, 0)

/-- The new `pc` (R80). -/
def selectPc (f : Fields) (s : State) (valP valM : Word) : PcSel → Word
  | .halts => s.pc
  | .valP => valP
  | .valC => f.valC
  | .valM => valM
  | .valCIfCnd => if selectCnd f s then f.valC else valP

/-- The cycle after decode (R82), for the fields of an instruction: operand read, ALU, memory stage, flags, write-back with
the memory path after the ALU path (R79), PC update. Class 0 raises `HLT`. -/
def cycle (f : Fields) (s : State) : State :=
  if (controlTable f.icode).newPc = .halts then raise s .hlt
  else
    let k := controlTable f.icode
    let valP := seqPc s (lengthOfClass f.icode)
    let valA := readReg s (selectReg f k.srcA)
    let valB := readReg s (selectReg f k.srcB)
    let aluA := selectAluA valA f.valC k.aluA
    let aluB := selectAluB valB k.aluB
    let valE := aluResult (selectAluFn f) aluA aluB
    match memoryStage s valA valE valP k.mem with
    | none => raise s .adr
    | some (t, valM) =>
      let t := if k.writesFlags then setFlags t (aluFlags (selectAluFn f) aluA aluB) else t
      let t := writeReg t (selectDstE f s) valE
      let t := writeReg t (selectReg f k.dstM) valM
      setPc t (selectPc f s valP valM k.newPc)

end Sys2Proof.Machine
end

