-- ==== Sys2Proof/Machine/HostInterface.lean ====
section
/-!
DEFINITION. The host's side of the machine (spec/00_scope.md rule R9): the Loader as a set of byte writes before a run
(R191), the run control (R193) and the introspection that only reads (R198). Reset is `State.resetWith`, the step is
`step`, and the run of `n` cycles is `Host.Core.run`. Parsing the image's text is out of scope (R4).
-/

namespace Sys2Proof.Machine

/-- The image written to memory, record after record; a byte outside memory is dropped (R191). -/
def loadImage (s : State) : List Host.Cell → State
  | [] => s
  | c :: image => loadImage (placeBytes s c.1 [c.2]) image

/-- The launch state (R191): reset, then the image. -/
def launch (cfg : Config) (image : List Host.Cell) : State := loadImage (State.resetWith cfg) image

/-- Run-to-completion cut off after `n` cycles: "while status = AOK: Cycle()" (R193). A run that ends within `n` cycles ends
in its terminal state; a run has no bound of its own (R195). -/
def runFor (n : Nat) (s : State) : Host.Outcome State Fault Refusal := Sys2Proof.core.run n s

/-- A run from `s` ends in `t`: after some number of cycles the state is `t`, with a terminal status (R194). -/
def RunEndsIn (s t : State) : Prop := ∃ n, runFor n s = .next t ∧ t.status ≠ .aok

/-- Introspection (R198): the program counter. -/
def observePc (s : State) : Word := s.pc

/-- Introspection (R198): the status. -/
def observeStatus (s : State) : Status := s.status

/-- Introspection (R198): the condition flags. -/
def observeFlags (s : State) : Flags := s.flags

/-- Introspection (R198): any register. -/
def observeReg (s : State) (r : RegId) : Word := readReg s r

/-- Introspection (R198): a memory byte range, bounds-checked (R9); `none` where it is not all inside memory. -/
def observeMem (s : State) (a n : Nat) : Option (List Byte) :=
  if a + n ≤ s.cfg.capacity then some (bytesAt s a n) else none

end Sys2Proof.Machine
end

