-- ==== Sys2Proof/Safety.lean ====
section
/-!
DEFINITION. The terms claims use: the invariant of the machine's states, reachable states, what makes a run safe, and the
accesses of one cycle that lie outside memory (spec/60_exceptions.md rule R172).
-/

namespace Sys2Proof.Machine

/-- The invariant: the parameters obey their constraint (R5), memory has its canonical form, and it lists no address at or
above C (R23). -/
abbrev State.Inv (s : State) : Prop :=
  s.cfg.wf ∧ s.mem.wf ∧ ∀ c ∈ s.mem, c.1 < s.cfg.capacity

/-- The states the machine can be in after a launch (R191) and any number of steps. -/
inductive Reachable : State → Prop
  | launched (cfg : Config) (image : List Host.Cell) (h : cfg.wf) : Reachable (launch cfg image)
  | stepped (s t : State) (h : Reachable s) (e : step s = .next t) : Reachable t

/-- A safe status: not one of the two faults (R170). -/
def Status.safe : Status → Bool
  | .aok => true
  | .hlt => true
  | .adr => false
  | .ins => false

/-- A run is safe when no number of steps ends in a fault status or in a refusal. -/
def SafeRun (s : State) : Prop := ∀ n, ∃ t, runFor n s = .next t ∧ t.status.safe = true

/-- The state an outcome answers, if it answers one. -/
def next? : Host.Outcome State Fault Refusal → Option State
  | .next t => some t
  | .fault _ => none
  | .refused _ => none

/-- Rows 1 to 3 of R172: a byte of the instruction at `pc` lies outside memory. The opcode byte is read first; its class, if
defined, decides which further bytes are read (R63). -/
def fetchOutside (s : State) : Prop :=
  s.cfg.capacity ≤ s.pc.toNat ∨
    ((hiNibble (s.mem.get s.pc.toNat)).toNat ≤ 11 ∧
      reservedFn (hiNibble (s.mem.get s.pc.toNat)) (loNibble (s.mem.get s.pc.toNat)) = false ∧
      s.cfg.capacity < s.pc.toNat + lengthOfClass (hiNibble (s.mem.get s.pc.toNat)))

/-- Rows 4 and 5 of R172: the data access of an instruction lies outside memory. -/
def dataOutside (i : Instr) (s : State) : Prop :=
  (∃ a, loadAddress? i s = some a ∧ s.cfg.capacity < a.toNat + 8) ∨
    (∃ a, storeAddress? i s = some a ∧ s.cfg.capacity < a.toNat + 8)

/-! ## What an instruction leaves unchanged -/

/-- Every byte of memory reads as before. -/
def SameMemory (s t : State) : Prop := ∀ a, t.mem.get a = s.mem.get a

/-- The eight bytes from `a` on hold `v`, least significant byte first, and every other byte reads as before (R33). -/
def StoredWord (s t : State) (a v : Word) : Prop :=
  (∀ k < 8, t.mem.get (a.toNat + k) = v.extractLsb' (8 * k) 8) ∧
    ∀ b, b < a.toNat ∨ a.toNat + 8 ≤ b → t.mem.get b = s.mem.get b

/-- Every register reads as before but `r`, which reads `v`; if `r` is "none", every register reads as before (R13). -/
def OnlyRegister (s t : State) (r : RegId) (v : Word) : Prop :=
  ∀ q, readReg t q = if q = r ∧ r ≠ .none then v else readReg s q

/-- The registers an instruction may write (R83, columns dstE and dstM). -/
def writtenRegs : Instr → List RegId
  | .halt => []
  | .nop => []
  | .rrmovq _ rB => [rB]
  | .cmovle _ rB => [rB]
  | .cmovl _ rB => [rB]
  | .cmove _ rB => [rB]
  | .cmovne _ rB => [rB]
  | .cmovge _ rB => [rB]
  | .cmovg _ rB => [rB]
  | .irmovq _ rB => [rB]
  | .rmmovq _ _ _ => []
  | .mrmovq _ _ rA => [rA]
  | .addq _ rB => [rB]
  | .subq _ rB => [rB]
  | .andq _ rB => [rB]
  | .xorq _ rB => [rB]
  | .jmp _ => []
  | .jle _ => []
  | .jl _ => []
  | .je _ => []
  | .jne _ => []
  | .jge _ => []
  | .jg _ => []
  | .call _ => [.slot 4]
  | .ret => [.slot 4]
  | .pushq _ => [.slot 4]
  | .popq rA => [.slot 4, rA]

/-- The `pc` an instruction that completes leaves (R80): the immediate or the sequential address for a jump by its
condition (R76), the immediate for call, the value at the stack pointer for return, the sequential address otherwise. -/
def newPc (i : Instr) (s : State) : Word :=
  match i with
  | .jmp dest => dest
  | .jle dest => if (s.flags.sf ^^ s.flags.of) || s.flags.zf then dest else s.pc + 9
  | .jl dest => if s.flags.sf ^^ s.flags.of then dest else s.pc + 9
  | .je dest => if s.flags.zf then dest else s.pc + 9
  | .jne dest => if !s.flags.zf then dest else s.pc + 9
  | .jge dest => if !(s.flags.sf ^^ s.flags.of) then dest else s.pc + 9
  | .jg dest => if !(s.flags.sf ^^ s.flags.of) && !s.flags.zf then dest else s.pc + 9
  | .call dest => dest
  | .ret => s.mem.getWord (popAddress s).toNat
  | i => s.pc + BitVec.ofNat 64 i.length

end Sys2Proof.Machine
end

