-- ==== Sys2Proof/Certificates/Slice0/Obligations.lean ====
section
/-!
DEFINITION. The statements for the provers, each named for what it states. A `stated` one says a numbered rule of the spec;
a `derived` one rests on the sections its docstring names, and where it rests on a choice the spec marks as its own, the
docstring names that decision (spec/92_eei_decisions.md D<n>). Every number of an encoding is such a choice (D1 to D6).
-/

open Sys2Proof Sys2Proof.Machine

/-! ## Encoding and decoding -/

/-- Every instruction is well formed, and its canonical bytes, whatever follows them, decode to it with all its operands
(30_encoding.md sections 4, 5). -/
def Obligations.DecodeOfEncodeIsTheInstruction : Prop :=
  ∀ (i : Instr) (rest : List Byte), i.wellFormed = true ∧ decode (encode i ++ rest) = .ok i rest

/-- The decoder of fields accepts exactly the well-formed fields' own bytes: no bit is dropped, none is invented, and what
`Fields.wellFormed` refuses is never decoded (30_encoding.md sections 1, 4). -/
def Obligations.FieldsAndBytesAgree : Prop :=
  ∀ (bs : List Byte) (f : Fields) (rest : List Byte),
    decodeFields bs = .ok f rest ↔ f.wellFormed = true ∧ bs = encodeFields f ++ rest

/-- Words written out from the encoding tables, one per class (the numbers are the spec's decisions D1 to D6). -/
def Obligations.WrittenWordsDecode : Prop :=
  decode [0x00] = .ok .halt [] ∧
  decode [0x10] = .ok .nop [] ∧
  decode [0x24, 0x12] = .ok (.cmovne .rcx .rdx) [] ∧
  decode [0x30, 0xf3, 0x07, 0, 0, 0, 0, 0, 0, 0] = .ok (.irmovq 7 .rbx) [] ∧
  decode [0x40, 0x15, 0xf8, 0xff, 0xff, 0xff, 0xff, 0xff, 0xff, 0xff] =
    .ok (.rmmovq .rcx 0xFFFFFFFFFFFFFFF8 .rbp) [] ∧
  decode [0x50, 0x26, 0x10, 0, 0, 0, 0, 0, 0, 0] = .ok (.mrmovq 16 .rsi .rdx) [] ∧
  decode [0x61, 0x8e] = .ok (.subq .r8 .r14) [] ∧
  decode [0x75, 0xef, 0xcd, 0xab, 0x89, 0x67, 0x45, 0x23, 0x01] = .ok (.jge 0x0123456789ABCDEF) [] ∧
  decode [0x80, 0x00, 0x01, 0, 0, 0, 0, 0, 0] = .ok (.call 0x100) [] ∧
  decode [0x90] = .ok .ret [] ∧
  decode [0xa0, 0x5f] = .ok (.pushq .rbp) [] ∧
  decode [0xb0, 0xaf] = .ok (.popq .r10) []

/-- R60: the first bytes 0xC0 to 0xFF, and no others, are rejected as an invalid class, whatever follows them; the cycle
then raises `INS` with no other state change. -/
def Obligations.InvalidClassRaisesIns : Prop :=
  (∀ (b : Byte) (bs : List Byte),
    (∃ n, decode (b :: bs) = .reject (.invalidClass n)) ↔ 12 ≤ (hiNibble b).toNat) ∧
  (∀ b : Byte, 12 ≤ (hiNibble b).toNat ↔ 0xC0 ≤ b.toNat) ∧
  ∀ s : State, s.status = .aok → s.pc.toNat < s.cfg.capacity →
    12 ≤ (hiNibble (s.mem.get s.pc.toNat)).toNat → step s = .next { s with status := .ins }

/-- The 30 reserved first bytes (30_encoding.md section 3; the spec's decision D8): the decoder rejects them as reserved and
no others, before any other byte is read; the step is refused by name under `refuse` and raises `INS`, with no other state
change, under `ins_fault`. -/
def Obligations.ReservedFunctionFollowsThePolicy : Prop :=
  (∀ (b : Byte) (bs : List Byte),
    decode (b :: bs) = .reject (.reservedFunction (hiNibble b) (loNibble b)) ↔
      ((0x27 ≤ b.toNat ∧ b.toNat ≤ 0x2F) ∨ (0x64 ≤ b.toNat ∧ b.toNat ≤ 0x6F) ∨ (0x77 ≤ b.toNat ∧ b.toNat ≤ 0x7F))) ∧
  ∀ s : State, s.status = .aok → s.pc.toNat < s.cfg.capacity →
    reservedFn (hiNibble (s.mem.get s.pc.toNat)) (loNibble (s.mem.get s.pc.toNat)) = true →
    step s =
      match s.cfg.reservedPolicy with
      | .refuse => .refused (.reservedFunction (hiNibble (s.mem.get s.pc.toNat)) (loNibble (s.mem.get s.pc.toNat)))
      | .insFault => .next { s with status := .ins }

/-- The nibbles that are decoded and ignored (30_encoding.md sections 2, 3; the spec's decisions D9, D10): the sub-function
outside classes 2, 6 and 7, rA in class 3, rB in classes 10 and 11. -/
def Obligations.IgnoredNibblesDoNotMatter : Prop :=
  (∀ (icode n : Nibble) (bs : List Byte), icode.toNat ∉ [2, 6, 7] →
    ∀ i rest, decode (byteOfNibbles icode n :: bs) = .ok i rest ↔ decode (byteOfNibbles icode 0 :: bs) = .ok i rest) ∧
  (∀ (ifun n rB : Nibble) (bs : List Byte),
    decode (byteOfNibbles 3 ifun :: byteOfNibbles n rB :: bs) = decode (byteOfNibbles 3 ifun :: byteOfNibbles 15 rB :: bs)) ∧
  (∀ (icode ifun rA n : Nibble) (bs : List Byte), icode.toNat ∈ [10, 11] →
    decode (byteOfNibbles icode ifun :: byteOfNibbles rA n :: bs) =
      decode (byteOfNibbles icode ifun :: byteOfNibbles rA 15 :: bs))

/-- An instruction takes up 1, 2, 9 or 10 bytes by its format, and the decoder takes exactly those (30_encoding.md
section 1). -/
def Obligations.DecodedLengthIsTheFormats : Prop :=
  ∀ (bs : List Byte) (i : Instr) (rest : List Byte), decode bs = .ok i rest →
    bs.length = i.length + rest.length ∧
    i.length =
      match i with
      | .halt | .nop | .ret => 1
      | .irmovq _ _ | .rmmovq _ _ _ | .mrmovq _ _ _ => 10
      | .jmp _ | .jle _ | .jl _ | .je _ | .jne _ | .jge _ | .jg _ | .call _ => 9
      | _ => 2

/-- A running machine whose bytes at `pc` decode to an instruction steps as that instruction does; the bytes are memory's,
from `pc` on, ten of them or as many as there are below C (40_cycle.md sections 1, 2). Nothing is added around `exec`. -/
def Obligations.StepRunsTheDecodedInstruction : Prop :=
  (∀ (s : State) (i : Instr) (rest : List Byte), s.status = .aok → decode (fetchBytes s) = .ok i rest →
    i.wellFormed = true ∧ step s = exec i s) ∧
  ∀ (s : State) (k : Nat),
    (fetchBytes s)[k]? =
      if k < 10 ∧ s.pc.toNat + k < s.cfg.capacity then some (s.mem.get (s.pc.toNat + k)) else none

/-! ## Reset, invariants and the whole machine -/

/-- R26: what reset leaves, at every capacity and under both policies. -/
def Obligations.ResetLeavesTheSpecifiedState : Prop :=
  ∀ cfg : Config,
    (∀ r, readReg (State.resetWith cfg) r = 0) ∧
    (State.resetWith cfg).flags.zf = true ∧ (State.resetWith cfg).flags.sf = false ∧
    (State.resetWith cfg).flags.of = false ∧ (State.resetWith cfg).pc = 0 ∧ (State.resetWith cfg).status = .aok ∧
    ∀ a, (State.resetWith cfg).mem.get a = 0

/-- The reset state is the one at the spec's default parameters, and the invariant holds there and at every reset whose
capacity obeys its constraint (00_scope.md section 4, 10_state.md section 9; that the parameters stand in the state is log
entry 1, the canonical form is log entry 3). -/
def Obligations.ResetMeetsTheInvariant : Prop :=
  State.reset = State.resetWith { capacity := 65536, reservedPolicy := .refuse } ∧ State.reset.Inv ∧
  ∀ cfg : Config, cfg.wf → (State.resetWith cfg).Inv

/-- Every step keeps the invariant: the parameters obey their constraint, memory keeps its canonical form, and it lists no
address at or above C (00_scope.md section 4, 10_state.md section 6). The canonical form is the model's own (log entry 3). -/
def Obligations.StepKeepsTheInvariant : Prop :=
  ∀ s t : State, s.Inv → step s = .next t → t.Inv

/-- No step writes the machine's parameters (00_scope.md section 4; that they stand in the state is the model's choice, log
entry 1). -/
def Obligations.StepKeepsTheParameters : Prop :=
  ∀ s t : State, step s = .next t → t.cfg = s.cfg

/-- R22: at a terminal status no number of steps changes anything; and a cycle that sets a terminal status writes
nothing else: no register, flag, memory byte, `pc`. -/
def Obligations.TerminalStatusStopsEverything : Prop :=
  (∀ s : State, s.status ≠ .aok → ∀ n, runFor n s = .next s) ∧
  ∀ s t : State, s.status = .aok → step s = .next t → t.status ≠ .aok → t = { s with status := t.status }

/-- R171: `HLT` is raised exactly where the opcode byte at `pc` has class 0. -/
def Obligations.HltIsRaisedByClassZeroOnly : Prop :=
  ∀ s t : State, s.status = .aok → step s = .next t →
    (t.status = .hlt ↔ s.pc.toNat < s.cfg.capacity ∧ (hiNibble (s.mem.get s.pc.toNat)).toNat = 0)

/-- `ADR` is raised exactly where a byte of the instruction at `pc` that is read, or the eight bytes its data access reads or
writes, do not all lie below C (60_exceptions.md section 1). A jump, call or return to an address at or above C is not such an
access. That a reserved sub-function reads no further byte is the spec's decision D8 (log entry 2); that the bounds' sums are
unbounded is its decision D15 (log entry 17). -/
def Obligations.AdrIsRaisedByOutsideAccessOnly : Prop :=
  ∀ s t : State, s.status = .aok → step s = .next t →
    (t.status = .adr ↔
      fetchOutside s ∨ ∃ i rest, decode (fetchBytes s) = .ok i rest ∧ dataOutside i s)

/-- `INS` is raised exactly where the opcode byte at `pc` has class 12 to 15, or, under `ins_fault`, a reserved sub-function
(60_exceptions.md section 1; the clause on `ins_fault` is the spec's decision D8, log entry 2). -/
def Obligations.InsIsRaisedByTheOpcodeByteOnly : Prop :=
  ∀ s t : State, s.status = .aok → step s = .next t →
    (t.status = .ins ↔ s.pc.toNat < s.cfg.capacity ∧
      (12 ≤ (hiNibble (s.mem.get s.pc.toNat)).toNat ∨
        (s.cfg.reservedPolicy = .insFault ∧
          reservedFn (hiNibble (s.mem.get s.pc.toNat)) (loNibble (s.mem.get s.pc.toNat)) = true)))

/-- A step has a next state everywhere but on a reserved sub-function under the policy `refuse` (70_reset_and_hazards.md
section 3); and every instruction, once decoded, has one on every state. -/
def Obligations.OnlyReservedFunctionsHaveNoOutcome : Prop :=
  (∀ s : State, (∀ t, step s ≠ .next t) ↔
    (s.status = .aok ∧ s.cfg.reservedPolicy = .refuse ∧ s.pc.toNat < s.cfg.capacity ∧
      reservedFn (hiNibble (s.mem.get s.pc.toNat)) (loNibble (s.mem.get s.pc.toNat)) = true)) ∧
  ∀ (i : Instr) (s : State), ∃ t, exec i s = .next t

/-- A run has at most one end (70_reset_and_hazards.md section 3). -/
def Obligations.RunEndIsUnique : Prop :=
  ∀ s t u : State, RunEndsIn s t → RunEndsIn s u → t = u

/-- A taken jump to its own address, unconditional or with its condition true on the flags, loops for ever with every piece
of state as it is: the machine has no watchdog (70_reset_and_hazards.md section 3, 45_jumps.md; the numbers of the jumps'
encodings are the spec's decisions D1 and D6). -/
def Obligations.JumpToSelfRunsForever : Prop :=
  ∀ (s : State) (c : Cond) (rest : List Byte), s.status = .aok → condHolds c s.flags = true →
    decode (fetchBytes s) = .ok (Instr.ofJump c s.pc) rest → ∀ n, runFor n s = .next s

/-- The Loader's launch state (70_reset_and_hazards.md section 2): each byte below C holds what the last record for it says,
zero where none does; everything else is as reset leaves it; and the invariant holds. That a later record wins is log
entry 8. -/
def Obligations.LaunchStateIsResetAndImage : Prop :=
  ∀ (cfg : Config) (image : List Host.Cell),
    (∀ a, (launch cfg image).mem.get a =
      if a < cfg.capacity then ((image.reverse.find? fun c => c.1 = a).map fun c => c.2).getD 0 else 0) ∧
    (launch cfg image).regs = (State.resetWith cfg).regs ∧ (launch cfg image).flags = (State.resetWith cfg).flags ∧
    (launch cfg image).pc = 0 ∧ (launch cfg image).status = .aok ∧ (launch cfg image).cfg = cfg ∧
    (cfg.wf → (launch cfg image).Inv)

/-! ## Memory -/

/-- `MemRead` (20_memory.md section 1). Out of bounds it is `ADR` (in the memory stage, and at the opcode byte of the fetch),
in bounds the byte or the little-endian value; it changes no state: the load hands the value to what follows, from the same
state. That the sum is unbounded is the spec's decision D15 (log entry 17). -/
def Obligations.MemReadIsBoundedAndLittleEndian : Prop :=
  (∀ (s : State) (a : Word), memRead1 s a =
    if a.toNat + 1 ≤ s.cfg.capacity then some (s.mem.get a.toNat) else none) ∧
  (∀ s : State, s.status = .aok → memRead1 s s.pc = none → step s = .next { s with status := .adr }) ∧
  ∀ (s : State) (a : Word) (k : Word → State),
    (¬ a.toNat + 8 ≤ s.cfg.capacity → withLoad s a k = { s with status := .adr }) ∧
    (a.toNat + 8 ≤ s.cfg.capacity → ∃ v, withLoad s a k = k v ∧
      v.toNat = ∑ i ∈ Finset.range 8, (s.mem.get (a.toNat + i)).toNat * 2 ^ (8 * i))

/-- `MemWrite` (20_memory.md section 1). Out of bounds it is `ADR` with nothing written; in bounds the eight bytes hold the
value, little-endian, and no other byte and no other state changes; and no instruction writes memory in another width. That
the sum is unbounded is the spec's decision D15 (log entry 17); that call's data is `pc` + 9 is its decision D19 (log entry
16). -/
def Obligations.MemWriteIsBoundedAndLittleEndian : Prop :=
  (∀ (s : State) (a v : Word) (k : State → State),
    (¬ a.toNat + 8 ≤ s.cfg.capacity → withStore s a v k = { s with status := .adr }) ∧
    (a.toNat + 8 ≤ s.cfg.capacity → ∃ m, withStore s a v k = k { s with mem := m } ∧
      StoredWord s { s with mem := m } a v)) ∧
  ∀ (i : Instr) (s t : State), exec i s = .next t →
    SameMemory s t ∨ ∃ a v, storeAddress? i s = some a ∧ storeData? i s = some v ∧ StoredWord s t a v

/-- The edge of memory (20_memory.md section 3): a data access whose last byte is the last byte of memory succeeds, and one
byte further it raises `ADR`; no other condition on the address stands. -/
def Obligations.EdgeOfMemory : Prop :=
  ∀ (s : State) (disp : Word) (rA rB : RegId),
    ((effectiveAddress s disp rB).toNat + 8 = s.cfg.capacity →
      (∃ t, exec (.rmmovq rA disp rB) s = .next t ∧ t.pc = s.pc + 10 ∧ t.status = s.status) ∧
      ∃ t, exec (.mrmovq disp rB rA) s = .next t ∧ t.pc = s.pc + 10 ∧ t.status = s.status) ∧
    ((effectiveAddress s disp rB).toNat + 7 = s.cfg.capacity →
      exec (.rmmovq rA disp rB) s = .next { s with status := .adr } ∧
      exec (.mrmovq disp rB rA) s = .next { s with status := .adr })

/-- Two memories in canonical form with the same bytes are the same data (10_state.md section 6; the canonical form is the
model's own, log entry 3). -/
def Obligations.CanonicalMemoryIsItsBytes : Prop :=
  ∀ m n : Memory, m.wf → n.wf → (∀ a, m.get a = n.get a) → m = n

/-- A store over the next instruction's bytes is what the next fetch reads (20_memory.md section 7; the spec's decision
D22). -/
def Obligations.StoreIsSeenByTheNextFetch : Prop :=
  ∀ (s t : State) (rA rB : RegId) (disp : Word),
    effectiveAddress s disp rB = s.pc + 10 → (effectiveAddress s disp rB).toNat + 8 ≤ s.cfg.capacity →
    exec (.rmmovq rA disp rB) s = .next t → (fetchBytes t).take 8 = bytesOfWord (readReg s rA)

/-! ## Registers, flags and the program counter, over all instructions -/

/-- No instruction changes a register but its destinations, at most two (10_state.md section 2, 40_cycle.md section 12; the
register roles are the spec's decision D7). -/
def Obligations.OnlyDestinationRegistersChange : Prop :=
  ∀ (i : Instr) (s t : State), exec i s = .next t →
    (writtenRegs i).length ≤ 2 ∧ ∀ r, r ∉ writtenRegs i → readReg t r = readReg s r

/-- R19: the three condition codes are written as a group by the arithmetic/logic instructions, and every other instruction
leaves them unchanged. -/
def Obligations.FlagsAreWrittenByArithmeticOnly : Prop :=
  (∀ (i : Instr) (s t : State), (∀ fn rA rB, i ≠ Instr.ofAlu fn rA rB) → exec i s = .next t → t.flags = s.flags) ∧
  ∀ (fn : AluFn) (rA rB : RegId) (s t : State), exec (Instr.ofAlu fn rA rB) s = .next t →
    t.flags = aluFlags fn (readReg s rA) (readReg s rB)

/-- Only the six conditional moves and the six conditional jumps read the condition codes (10_state.md section 4). Run with
other flags, an arithmetic/logic instruction gives the very same state, its flags among it; and any other instruction gives
the same state with those other flags kept. -/
def Obligations.FlagsAreReadByConditionalsOnly : Prop :=
  (∀ (fn : AluFn) (rA rB : RegId) (s t : State) (f : Flags),
    exec (Instr.ofAlu fn rA rB) s = .next t → exec (Instr.ofAlu fn rA rB) { s with flags := f } = .next t) ∧
  ∀ (i : Instr) (s t : State) (f : Flags), (∀ fn rA rB, i ≠ Instr.ofAlu fn rA rB) →
    (∀ c rA rB, c ≠ .always → i ≠ Instr.ofMove c rA rB) → (∀ c dest, c ≠ .always → i ≠ Instr.ofJump c dest) →
    exec i s = .next t → exec i { s with flags := f } = .next { t with flags := f }

/-- After a subtraction the conditions compare the old second operand with the first as signed integers, also where the
subtraction overflowed (40_cycle.md section 6, 44_alu.md section 1; the operand of the overflow rule is the spec's decision
D13). -/
def Obligations.ConditionsAfterSubtractionCompare : Prop :=
  ∀ a b : Word,
    (condHolds .l (aluFlags .sub a b) = true ↔ b.toInt < a.toInt) ∧
    (condHolds .le (aluFlags .sub a b) = true ↔ b.toInt ≤ a.toInt) ∧
    (condHolds .e (aluFlags .sub a b) = true ↔ b.toInt = a.toInt) ∧
    (condHolds .ne (aluFlags .sub a b) = true ↔ b.toInt ≠ a.toInt) ∧
    (condHolds .ge (aluFlags .sub a b) = true ↔ b.toInt ≥ a.toInt) ∧
    (condHolds .g (aluFlags .sub a b) = true ↔ b.toInt > a.toInt)

/-- R80: the `pc` that each instruction leaves when it completes, unchecked; class 0 and a fault leave `pc` as it was. -/
def Obligations.PcUpdateByInstruction : Prop :=
  ∀ (i : Instr) (s t : State), exec i s = .next t →
    (i ≠ .halt → ¬ dataOutside i s → t.pc = newPc i s) ∧ (i = .halt ∨ dataOutside i s → t.pc = s.pc)

/-- The sequential next address never wraps (10_state.md section 3; the bound on C is the spec's decision D14). -/
def Obligations.SequentialAddressNeverWraps : Prop :=
  ∀ (s : State) (i : Instr) (rest : List Byte), s.cfg.wf → decode (fetchBytes s) = .ok i rest →
    s.pc.toNat + i.length ≤ s.cfg.capacity ∧ (seqPc s i.length).toNat = s.pc.toNat + i.length

/-! ## Each instruction: where it completes, its result and its frame

The mnemonics and the roles of rA and rB are the spec's decisions D2 and D7; the stack pointer's id 4 is D4; that register
id "none" reads as 0 is D11. -/

/-- `halt` (41_halt_nop.md): only the status changes. -/
def Obligations.HaltEffect : Prop :=
  ∀ s : State, exec .halt s = .next { s with status := .hlt }

/-- `nop` (41_halt_nop.md): only `pc` changes. -/
def Obligations.NopEffect : Prop :=
  ∀ s : State, exec .nop s = .next { s with pc := s.pc + 1 }

/-- The register move and the conditional moves (42_moves.md section 1): each moves x[rA] to rB when its condition holds on
the flags, and advances `pc` by 2 either way; nothing else changes. -/
def Obligations.MoveEffects : Prop :=
  ∀ (rA rB : RegId) (s : State),
    let moves : Instr → Bool → Prop := fun i cnd =>
      ∃ t, exec i s = .next t ∧ OnlyRegister s t (if cnd then rB else .none) (readReg s rA) ∧ t.pc = s.pc + 2 ∧
        t.flags = s.flags ∧ t.status = s.status ∧ SameMemory s t ∧ t.cfg = s.cfg
    moves (.rrmovq rA rB) true ∧
    moves (.cmovle rA rB) ((s.flags.sf ^^ s.flags.of) || s.flags.zf) ∧
    moves (.cmovl rA rB) (s.flags.sf ^^ s.flags.of) ∧
    moves (.cmove rA rB) s.flags.zf ∧
    moves (.cmovne rA rB) (!s.flags.zf) ∧
    moves (.cmovge rA rB) (!(s.flags.sf ^^ s.flags.of)) ∧
    moves (.cmovg rA rB) (!(s.flags.sf ^^ s.flags.of) && !s.flags.zf)

/-- `irmovq` (42_moves.md section 2). -/
def Obligations.IrmovqEffect : Prop :=
  ∀ (imm : Word) (rB : RegId) (s : State), ∃ t, exec (.irmovq imm rB) s = .next t ∧
    OnlyRegister s t rB imm ∧ t.pc = s.pc + 10 ∧ t.flags = s.flags ∧ t.status = s.status ∧ SameMemory s t ∧ t.cfg = s.cfg

/-- `rmmovq` (43_load_store.md), its address inside memory. -/
def Obligations.RmmovqEffect : Prop :=
  ∀ (rA rB : RegId) (disp : Word) (s : State),
    (effectiveAddress s disp rB).toNat + 8 ≤ s.cfg.capacity → ∃ t, exec (.rmmovq rA disp rB) s = .next t ∧
      effectiveAddress s disp rB = disp + readReg s rB ∧
      StoredWord s t (effectiveAddress s disp rB) (readReg s rA) ∧
      (∀ r, readReg t r = readReg s r) ∧ t.pc = s.pc + 10 ∧ t.flags = s.flags ∧ t.status = s.status ∧ t.cfg = s.cfg

/-- `mrmovq` (43_load_store.md), its address inside memory: rA takes the eight bytes, least significant first. -/
def Obligations.MrmovqEffect : Prop :=
  ∀ (rA rB : RegId) (disp : Word) (s : State),
    (effectiveAddress s disp rB).toNat + 8 ≤ s.cfg.capacity → ∃ t v, exec (.mrmovq disp rB rA) s = .next t ∧
      effectiveAddress s disp rB = disp + readReg s rB ∧
      (∀ k < 8, v.extractLsb' (8 * k) 8 = s.mem.get ((effectiveAddress s disp rB).toNat + k)) ∧
      OnlyRegister s t rA v ∧ t.pc = s.pc + 10 ∧ t.flags = s.flags ∧ t.status = s.status ∧ SameMemory s t ∧ t.cfg = s.cfg

/-- `addq` (44_alu.md section 1): the wrapped sum; ZF, SF from it; OF exactly where the signed sum does not fit. -/
def Obligations.AddqEffect : Prop :=
  ∀ (rA rB : RegId) (s : State), ∃ t, exec (.addq rA rB) s = .next t ∧
    OnlyRegister s t rB (readReg s rB + readReg s rA) ∧
    (t.flags.zf = true ↔ readReg s rB + readReg s rA = 0) ∧
    (t.flags.sf = true ↔ (readReg s rB + readReg s rA).toInt < 0) ∧
    (t.flags.of = true ↔
      (readReg s rB).toInt + (readReg s rA).toInt < -(2 ^ 63) ∨ 2 ^ 63 - 1 < (readReg s rB).toInt + (readReg s rA).toInt) ∧
    t.pc = s.pc + 2 ∧ t.status = s.status ∧ SameMemory s t ∧ t.cfg = s.cfg

/-- `subq` (44_alu.md section 1): the second operand minus the first; OF exactly where the signed difference does not fit
(the spec's decision D13). -/
def Obligations.SubqEffect : Prop :=
  ∀ (rA rB : RegId) (s : State), ∃ t, exec (.subq rA rB) s = .next t ∧
    OnlyRegister s t rB (readReg s rB - readReg s rA) ∧
    (t.flags.zf = true ↔ readReg s rB = readReg s rA) ∧
    (t.flags.sf = true ↔ (readReg s rB - readReg s rA).toInt < 0) ∧
    (t.flags.of = true ↔
      (readReg s rB).toInt - (readReg s rA).toInt < -(2 ^ 63) ∨ 2 ^ 63 - 1 < (readReg s rB).toInt - (readReg s rA).toInt) ∧
    t.pc = s.pc + 2 ∧ t.status = s.status ∧ SameMemory s t ∧ t.cfg = s.cfg

/-- `andq` and `xorq` (44_alu.md section 1): bit by bit; OF is cleared. -/
def Obligations.AndqXorqEffect : Prop :=
  ∀ (rA rB : RegId) (s : State),
    let writes : Instr → Word → Prop := fun i v =>
      ∃ t, exec i s = .next t ∧ OnlyRegister s t rB v ∧ (t.flags.zf = true ↔ v = 0) ∧
        (t.flags.sf = true ↔ v.toInt < 0) ∧ t.flags.of = false ∧ t.pc = s.pc + 2 ∧ t.status = s.status ∧
        SameMemory s t ∧ t.cfg = s.cfg
    writes (.andq rA rB) (readReg s rB &&& readReg s rA) ∧ writes (.xorq rA rB) (readReg s rB ^^^ readReg s rA)

/-- The jumps (45_jumps.md): each goes to its target when its condition holds on the flags and to `pc` + 9 otherwise; only
`pc` changes, and the target is not checked. -/
def Obligations.JumpEffects : Prop :=
  ∀ (dest : Word) (s : State),
    let jumps : Instr → Bool → Prop := fun i cnd =>
      exec i s = .next { s with pc := if cnd then dest else s.pc + 9 }
    jumps (.jmp dest) true ∧
    jumps (.jle dest) ((s.flags.sf ^^ s.flags.of) || s.flags.zf) ∧
    jumps (.jl dest) (s.flags.sf ^^ s.flags.of) ∧
    jumps (.je dest) s.flags.zf ∧
    jumps (.jne dest) (!s.flags.zf) ∧
    jumps (.jge dest) (!(s.flags.sf ^^ s.flags.of)) ∧
    jumps (.jg dest) (!(s.flags.sf ^^ s.flags.of) && !s.flags.zf)

/-- `call` (46_call_ret.md), the new stack pointer inside memory: `pc` + 9 is pushed (the spec's decision D19). -/
def Obligations.CallEffect : Prop :=
  ∀ (dest : Word) (s : State), (pushAddress s).toNat + 8 ≤ s.cfg.capacity → ∃ t, exec (.call dest) s = .next t ∧
    pushAddress s = readReg s (.slot 4) - 8 ∧ StoredWord s t (pushAddress s) (s.pc + 9) ∧
    OnlyRegister s t (.slot 4) (readReg s (.slot 4) - 8) ∧ t.pc = dest ∧ t.flags = s.flags ∧ t.status = s.status ∧
    t.cfg = s.cfg

/-- `ret` (46_call_ret.md), the old stack pointer inside memory: `pc` takes the eight bytes there, unchecked. -/
def Obligations.RetEffect : Prop :=
  ∀ s : State, (readReg s (.slot 4)).toNat + 8 ≤ s.cfg.capacity → ∃ t, exec .ret s = .next t ∧
    (∀ k < 8, t.pc.extractLsb' (8 * k) 8 = s.mem.get ((readReg s (.slot 4)).toNat + k)) ∧
    OnlyRegister s t (.slot 4) (readReg s (.slot 4) + 8) ∧ t.flags = s.flags ∧ t.status = s.status ∧ SameMemory s t ∧
    t.cfg = s.cfg

/-- `pushq` (47_push_pop.md), the new stack pointer inside memory: the register's old value is pushed, also for `%rsp`. -/
def Obligations.PushqEffect : Prop :=
  ∀ (rA : RegId) (s : State), (pushAddress s).toNat + 8 ≤ s.cfg.capacity → ∃ t, exec (.pushq rA) s = .next t ∧
    pushAddress s = readReg s (.slot 4) - 8 ∧ StoredWord s t (pushAddress s) (readReg s rA) ∧
    OnlyRegister s t (.slot 4) (readReg s (.slot 4) - 8) ∧ t.pc = s.pc + 2 ∧ t.flags = s.flags ∧ t.status = s.status ∧
    t.cfg = s.cfg

/-- `popq` (47_push_pop.md), the old stack pointer inside memory: rA takes the popped value, also where it is the stack
pointer (the spec's decision D12); otherwise the stack pointer is raised by 8. -/
def Obligations.PopqEffect : Prop :=
  ∀ (rA : RegId) (s : State), (readReg s (.slot 4)).toNat + 8 ≤ s.cfg.capacity → ∃ t v, exec (.popq rA) s = .next t ∧
    (∀ k < 8, v.extractLsb' (8 * k) 8 = s.mem.get ((readReg s (.slot 4)).toNat + k)) ∧
    (∀ r, readReg t r =
      if r = rA ∧ r ≠ .none then v else if r = .slot 4 then readReg s (.slot 4) + 8 else readReg s r) ∧
    t.pc = s.pc + 2 ∧ t.flags = s.flags ∧ t.status = s.status ∧ SameMemory s t ∧ t.cfg = s.cfg

/-- A data access outside memory (43_load_store.md, 46_call_ret.md, 47_push_pop.md; the unbounded sum is the spec's decision
D15): each of the six memory instructions raises `ADR` and changes nothing else. -/
def Obligations.OutsideDataAccessRaisesAdr : Prop :=
  ∀ s : State,
    (∀ rA disp rB, s.cfg.capacity < (effectiveAddress s disp rB).toNat + 8 →
      exec (.rmmovq rA disp rB) s = .next { s with status := .adr } ∧
      exec (.mrmovq disp rB rA) s = .next { s with status := .adr }) ∧
    (s.cfg.capacity < (pushAddress s).toNat + 8 →
      (∀ dest, exec (.call dest) s = .next { s with status := .adr }) ∧
      ∀ rA, exec (.pushq rA) s = .next { s with status := .adr }) ∧
    (s.cfg.capacity < (readReg s (.slot 4)).toNat + 8 →
      exec .ret s = .next { s with status := .adr } ∧ ∀ rA, exec (.popq rA) s = .next { s with status := .adr })

/-- With a stack pointer of 0 to 7, as after reset, a push or a call wraps below address 0 and raises `ADR`
(70_reset_and_hazards.md section 2, 47_push_pop.md; the bound on C is the spec's decision D14). -/
def Obligations.PushBelowZeroRaisesAdr : Prop :=
  ∀ (s : State) (rA : RegId) (dest : Word), s.cfg.wf → (readReg s (.slot 4)).toNat < 8 →
    exec (.pushq rA) s = .next { s with status := .adr } ∧ exec (.call dest) s = .next { s with status := .adr }

/-! ## Instructions together -/

/-- Push then pop (47_push_pop.md, stack discipline): the pushed register's value arrives in the popped one, the stack
pointer is back unless it is the popped register, and no other register changes. Where the popped register is the stack
pointer, that it keeps the popped value is the spec's decision D12 (log entry 14). -/
def Obligations.PushThenPopCopies : Prop :=
  ∀ (s : State) (rA rB : RegId), (pushAddress s).toNat + 8 ≤ s.cfg.capacity →
    ∃ t u, exec (.pushq rA) s = .next t ∧ exec (.popq rB) t = .next u ∧ OnlyRegister s u rB (readReg s rA) ∧
      u.pc = s.pc + 4

/-- Call then return (47_push_pop.md, stack discipline): control is back at the byte after the call, with every register as
before it. That call pushes `pc` + 9 is the spec's decision D19 (log entry 16). -/
def Obligations.CallThenRetResumes : Prop :=
  ∀ (s : State) (dest : Word), (pushAddress s).toNat + 8 ≤ s.cfg.capacity →
    ∃ t u, exec (.call dest) s = .next t ∧ t.pc = dest ∧ exec .ret t = .next u ∧ u.pc = s.pc + 9 ∧
      ∀ r, readReg u r = readReg s r

/-- Move, store, load (43_load_store.md): "a register-to-register move followed by storing that register to memory then
loading it back into a different register yields the original value". -/
def Obligations.MoveStoreLoadRoundTrip : Prop :=
  ∀ (s : State) (p q r : RegId) (a : Word), q ≠ .none → r ≠ .none → a.toNat + 8 ≤ s.cfg.capacity →
    ∃ t u v, exec (.rrmovq p q) s = .next t ∧ exec (.rmmovq q a .none) t = .next u ∧
      exec (.mrmovq a .none r) u = .next v ∧ readReg v r = readReg s p

/-! ## The meanings and the control table are one machine -/

/-- Every instruction's meaning, written from its family's file, is the cycle of the control table on any fields that stand
for it, the ignored nibbles at any value (40_cycle.md sections 11, 12; the table's cells are the spec's decision D7). -/
def Obligations.ExecIsControlTableCycle : Prop :=
  ∀ (f : Fields) (i : Instr) (s : State), f.instr? = some i → exec i s = .next (cycle f s)

/-- A running machine's step is the decoder of fields and the cycle of the control table (40_cycle.md sections 2, 11, 12;
decision D7). -/
def Obligations.StepIsControlTableCycle : Prop :=
  ∀ s : State, s.status = .aok →
    step s =
      match decodeFields (fetchBytes s) with
      | .ok f _ => .next (cycle f s)
      | .reject r => rejectCycle r s
end

