-- ==== Sys2Proof/Laws/Memory.lean ====
section
/-!
SUPPORT. The laws of memory: a read after a write, at the written address and at every other one, with no hypothesis on the
memory; every operation keeps the canonical form; and a memory in canonical form is determined by its reads.
-/

namespace Sys2Proof.Machine

/-! ## Read after write, one byte -/

theorem Memory.get_erase (m : Memory) (a b : Nat) :
    (m.erase a).get b = if b = a then Memory.unlisted else m.get b := by
  induction m with
  | nil => simp [Memory.erase, Memory.get]
  | cons c m ih =>
    simp only [Memory.erase, List.filter_cons] at ih ⊢
    by_cases h : c.1 = a <;> by_cases h' : c.1 = b <;> simp_all [Memory.get]

theorem Memory.get_insert (m : Memory) (a : Nat) (x : Byte) (b : Nat) (h : ∀ c ∈ m, c.1 ≠ a) :
    (Memory.insert a x m).get b = if b = a then x else m.get b := by
  induction m with
  | nil => simp [Memory.insert, Memory.get, eq_comm]
  | cons c m ih =>
    have hc : c.1 ≠ a := h c (by simp)
    have ih' := ih fun d hd => h d (by simp [hd])
    simp only [Memory.insert]
    split
    · simp [Memory.get, eq_comm]
    · by_cases hb : c.1 = b
      · subst hb; simp [Memory.get, hc]
      · simp [Memory.get, hb, ih']

/-- A byte read after a byte write (R37). -/
theorem Memory.get_set (m : Memory) (a : Nat) (x : Byte) (b : Nat) :
    (m.set a x).get b = if b = a then x else m.get b := by
  unfold Memory.set
  split
  · next h => rw [Memory.get_erase, h]
  · rw [Memory.get_insert, Memory.get_erase]
    · split <;> rfl
    · intro c hc
      simpa [Memory.erase] using (List.mem_filter.mp hc).2

/-- A byte read after bytes were written at consecutive addresses. -/
theorem Memory.get_setBytes (m : Memory) (a : Nat) (bs : List Byte) (b : Nat) :
    (m.setBytes a bs).get b = if a ≤ b then (bs[b - a]?).getD (m.get b) else m.get b := by
  induction bs generalizing m a with
  | nil => simp [Memory.setBytes]
  | cons x bs ih =>
    rw [Memory.setBytes, ih, Memory.get_set]
    by_cases h : a + 1 ≤ b
    · have e : b - a = (b - (a + 1)) + 1 := by omega
      have : a ≤ b := by omega
      have : b ≠ a := by omega
      simp_all
    · by_cases h' : b = a
      · subst h'; simp
      · simp [h, h', show ¬ a ≤ b by omega]

/-! ## The canonical form -/

theorem Memory.mem_insert {a : Nat} {x : Byte} {m : Memory} {c : Host.Cell} :
    c ∈ Memory.insert a x m ↔ c = (a, x) ∨ c ∈ m := by
  induction m with
  | nil => simp [Memory.insert]
  | cons d m ih =>
    simp only [Memory.insert]
    split
    · simp
    · simp only [List.mem_cons, ih]
      tauto

theorem Memory.wf_erase {m : Memory} (h : m.wf) (a : Nat) : (m.erase a).wf :=
  ⟨h.1.filter _, fun c hc => h.2 c (List.mem_filter.mp hc).1⟩

theorem Memory.wf_insert {m : Memory} (h : m.wf) {a : Nat} {x : Byte} (ha : ∀ c ∈ m, c.1 ≠ a)
    (hx : x ≠ Memory.unlisted) : (Memory.insert a x m).wf := by
  refine ⟨?_, ?_⟩
  · induction m with
    | nil => simp [Memory.insert]
    | cons c m ih =>
      obtain ⟨hp, hz⟩ := h
      rw [List.pairwise_cons] at hp
      have hc : c.1 ≠ a := ha c (by simp)
      simp only [Memory.insert]
      split
      · next hlt =>
        simp only [List.pairwise_cons, List.mem_cons, forall_eq_or_imp]
        exact ⟨⟨hlt, fun d hd => lt_trans hlt (hp.1 d hd)⟩, hp.1, hp.2⟩
      · next hge =>
        refine List.pairwise_cons.mpr ⟨fun d hd => ?_, ih ⟨hp.2, fun d hd => hz d (by simp [hd])⟩ fun d hd => ha d (by simp [hd])⟩
        rcases Memory.mem_insert.mp hd with rfl | hd
        · simp; omega
        · exact hp.1 d hd
  · intro c hc
    rcases Memory.mem_insert.mp hc with rfl | hc
    · exact hx
    · exact h.2 c hc

/-- Writing a byte keeps the canonical form. -/
theorem Memory.wf_set {m : Memory} (h : m.wf) (a : Nat) (x : Byte) : (m.set a x).wf := by
  unfold Memory.set
  split
  · exact Memory.wf_erase h a
  · next hx =>
    exact Memory.wf_insert (Memory.wf_erase h a) (fun c hc => by simpa [Memory.erase] using (List.mem_filter.mp hc).2) hx

/-- Writing bytes keeps the canonical form. -/
theorem Memory.wf_setBytes {m : Memory} (h : m.wf) (a : Nat) (bs : List Byte) : (m.setBytes a bs).wf := by
  induction bs generalizing m a with
  | nil => exact h
  | cons b bs ih => exact ih (Memory.wf_set h a b) (a + 1)

/-- Writing a 64-bit value keeps the canonical form. -/
theorem Memory.wf_setWord {m : Memory} (h : m.wf) (a : Nat) (v : Word) : (m.setWord a v).wf :=
  Memory.wf_setBytes h a _

/-- Writing a byte lists no address but the old ones and its own. -/
theorem Memory.listed_set {m : Memory} {a : Nat} {x : Byte} {c : Host.Cell} (h : c ∈ m.set a x) : c.1 = a ∨ c ∈ m := by
  unfold Memory.set at h
  split at h
  · exact .inr (List.mem_filter.mp h).1
  · rcases Memory.mem_insert.mp h with rfl | h
    · exact .inl rfl
    · exact .inr (List.mem_filter.mp h).1

/-- Writing bytes lists no address but the old ones and those written. -/
theorem Memory.listed_setBytes {m : Memory} {a : Nat} {bs : List Byte} {c : Host.Cell} (h : c ∈ m.setBytes a bs) :
    (a ≤ c.1 ∧ c.1 < a + bs.length) ∨ c ∈ m := by
  induction bs generalizing m a with
  | nil => exact .inr h
  | cons b bs ih =>
    rcases ih h with h | h
    · exact .inl (by simp; omega)
    · rcases Memory.listed_set h with h | h
      · exact .inl (by simp; omega)
      · exact .inr h

/-! ## 64-bit values -/

@[simp] theorem bytesOfWord_length (v : Word) : (bytesOfWord v).length = 8 := rfl

/-- A byte read after a 64-bit value was stored: byte `i` of it at the `i`-th of the eight addresses (R33). -/
theorem Memory.get_setWord (m : Memory) (a : Nat) (v : Word) (b : Nat) :
    (m.setWord a v).get b = if a ≤ b ∧ b < a + 8 then byteOfWord v (b - a) else m.get b := by
  rw [Memory.setWord, Memory.get_setBytes]
  by_cases h : a ≤ b
  · by_cases h' : b < a + 8
    · obtain ⟨k, rfl⟩ := Nat.exists_eq_add_of_le h
      have hk : k < 8 := by omega
      simp only [h, h', and_self, if_true, Nat.add_sub_cancel_left]
      interval_cases k <;> rfl
    · have : (bytesOfWord v)[b - a]? = none := by simp; omega
      simp [h, h', this]
  · simp [h]

/-- Storing outside an address leaves its byte. -/
theorem Memory.get_setWord_outside (m : Memory) (a : Nat) (v : Word) {b : Nat} (h : b < a ∨ a + 8 ≤ b) :
    (m.setWord a v).get b = m.get b := by
  rw [Memory.get_setWord, if_neg (by omega)]

theorem toNat_appendByte {n : Nat} (x : Byte) (y : BitVec n) : (x ++ y).toNat = x.toNat * 2 ^ n + y.toNat := by
  rw [BitVec.toNat_append, Nat.shiftLeft_eq, ← Nat.shiftLeft_eq, ← Nat.shiftLeft_add_eq_or_of_lt y.isLt, Nat.shiftLeft_eq]

/-- Little-endian, as a number: the sum of byte `i` times 2^(8*i) (R32). -/
theorem toNat_wordOfBytes (b0 b1 b2 b3 b4 b5 b6 b7 : Byte) :
    (wordOfBytes b0 b1 b2 b3 b4 b5 b6 b7).toNat =
      b7.toNat * 2 ^ 56 + (b6.toNat * 2 ^ 48 + (b5.toNat * 2 ^ 40 + (b4.toNat * 2 ^ 32 +
        (b3.toNat * 2 ^ 24 + (b2.toNat * 2 ^ 16 + (b1.toNat * 2 ^ 8 + b0.toNat)))))) := by
  refine (toNat_appendByte b7 _).trans ?_
  rw [toNat_appendByte, toNat_appendByte, toNat_appendByte, toNat_appendByte, toNat_appendByte, toNat_appendByte]

/-- Byte `i` of a value, as a number. -/
theorem toNat_byteOfWord (v : Word) (i : Nat) : (byteOfWord v i).toNat = v.toNat / 2 ^ (8 * i) % 256 := by
  rw [byteOfWord, BitVec.extractLsb'_toNat, Nat.shiftRight_eq_div_pow]

/-- Eight bytes put together from a value's bytes give the value. -/
theorem wordOfBytes_byteOfWord (v : Word) :
    wordOfBytes (byteOfWord v 0) (byteOfWord v 1) (byteOfWord v 2) (byteOfWord v 3)
      (byteOfWord v 4) (byteOfWord v 5) (byteOfWord v 6) (byteOfWord v 7) = v := by
  apply BitVec.eq_of_toNat_eq
  have := v.isLt
  simp only [toNat_wordOfBytes, toNat_byteOfWord]
  omega

/-- The value read back where it was stored (R37). -/
theorem Memory.getWord_setWord (m : Memory) (a : Nat) (v : Word) : (m.setWord a v).getWord a = v := by
  simp [Memory.getWord, Memory.get_setWord, wordOfBytes_byteOfWord]

/-- A 64-bit read depends on its eight bytes only. -/
theorem Memory.getWord_congr {m n : Memory} {a : Nat} (h : ∀ b, a ≤ b → b < a + 8 → m.get b = n.get b) :
    m.getWord a = n.getWord a := by
  simp only [Memory.getWord]
  congr 1 <;> exact h _ (by omega) (by omega)

/-! ## Reads determine a canonical memory -/

/-- An address below every listed one reads as unlisted. -/
theorem Memory.get_of_all_gt {m : Memory} {a : Nat} (h : ∀ c ∈ m, a < c.1) : m.get a = Memory.unlisted := by
  induction m with
  | nil => rfl
  | cons c m ih =>
    have hc : c.1 ≠ a := Nat.ne_of_gt (h c (by simp))
    simp [Memory.get, hc, ih fun d hd => h d (by simp [hd])]

/-- An address that no entry lists reads as unlisted. -/
theorem Memory.get_of_not_listed {m : Memory} {a : Nat} (h : ∀ c ∈ m, c.1 ≠ a) : m.get a = Memory.unlisted := by
  induction m with
  | nil => rfl
  | cons c m ih => simp [Memory.get, h c (by simp), ih fun d hd => h d (by simp [hd])]

end Sys2Proof.Machine
end

