-- ==== Sys2Proof/Laws/Decode.lean ====
section
/-!
SUPPORT. The laws of the decoder's and the encoder's parts: nibbles and bytes, register ids, the register byte, the immediate.
-/

namespace Sys2Proof

theorem toNat_hiNibble (b : Byte) : (hiNibble b).toNat = b.toNat / 16 % 16 := by
  rw [hiNibble, BitVec.extractLsb'_toNat, Nat.shiftRight_eq_div_pow]

theorem toNat_loNibble (b : Byte) : (loNibble b).toNat = b.toNat % 16 := by
  rw [loNibble, BitVec.extractLsb'_toNat]; rfl

theorem toNat_byteOfNibbles (hi lo : Nibble) : (byteOfNibbles hi lo).toNat = hi.toNat * 16 + lo.toNat := by
  refine (BitVec.toNat_append hi lo).trans ?_
  rw [← Nat.shiftLeft_add_eq_or_of_lt lo.isLt, Nat.shiftLeft_eq]

@[simp] theorem hiNibble_byteOfNibbles (hi lo : Nibble) : hiNibble (byteOfNibbles hi lo) = hi := by
  apply BitVec.eq_of_toNat_eq
  have := hi.isLt; have := lo.isLt
  rw [toNat_hiNibble, toNat_byteOfNibbles]; omega

@[simp] theorem loNibble_byteOfNibbles (hi lo : Nibble) : loNibble (byteOfNibbles hi lo) = lo := by
  apply BitVec.eq_of_toNat_eq
  have := hi.isLt; have := lo.isLt
  rw [toNat_loNibble, toNat_byteOfNibbles]; omega

/-- A byte is its two nibbles: no bit is lost. -/
@[simp] theorem byteOfNibbles_nibbles (b : Byte) : byteOfNibbles (hiNibble b) (loNibble b) = b := by
  apply BitVec.eq_of_toNat_eq
  have := b.isLt
  rw [toNat_byteOfNibbles, toNat_hiNibble, toNat_loNibble]; omega

@[simp] theorem RegId.ofNibble_nibble (r : RegId) : RegId.ofNibble r.nibble = r := by
  cases r with
  | none => rfl
  | slot i => revert i; decide

@[simp] theorem RegId.nibble_ofNibble (n : Nibble) : (RegId.ofNibble n).nibble = n := by
  revert n; decide

/-- The bytes of a value are the bytes it was put together from. -/
theorem bytesOfWord_wordOfBytes (b0 b1 b2 b3 b4 b5 b6 b7 : Byte) :
    bytesOfWord (wordOfBytes b0 b1 b2 b3 b4 b5 b6 b7) = [b0, b1, b2, b3, b4, b5, b6, b7] := by
  have := b0.isLt; have := b1.isLt; have := b2.isLt; have := b3.isLt
  have := b4.isLt; have := b5.isLt; have := b6.isLt; have := b7.isLt
  have key : ∀ i (b : Byte), (wordOfBytes b0 b1 b2 b3 b4 b5 b6 b7).toNat / 2 ^ (8 * i) % 256 = b.toNat →
      byteOfWord (wordOfBytes b0 b1 b2 b3 b4 b5 b6 b7) i = b := fun i b h =>
    BitVec.eq_of_toNat_eq (by rw [Machine.toNat_byteOfWord, h])
  simp only [Machine.toNat_wordOfBytes] at key
  simp only [bytesOfWord, List.cons.injEq, and_true]
  refine ⟨key 0 b0 ?_, key 1 b1 ?_, key 2 b2 ?_, key 3 b3 ?_, key 4 b4 ?_, key 5 b5 ?_, key 6 b6 ?_, key 7 b7 ?_⟩ <;> omega

/-- What the register byte gives: exactly when the class carries one, it is the head of the bytes. -/
theorem takeRegs_eq_some {icode : Nibble} {bs rest : List Byte} {rA rB : Nibble} :
    takeRegs icode bs = some (rA, rB, rest) ↔
      if needRegs icode then bs = byteOfNibbles rA rB :: rest else rA = 15 ∧ rB = 15 ∧ bs = rest := by
  unfold takeRegs
  split
  · cases bs with
    | nil => simp
    | cons b bs =>
      simp only [Option.some.injEq, Prod.mk.injEq, List.cons.injEq]
      constructor
      · rintro ⟨rfl, rfl, rfl⟩; simp
      · rintro ⟨rfl, rfl⟩; simp
  · simp only [Option.some.injEq, Prod.mk.injEq, eq_comm]

/-- What the immediate gives: exactly when the class carries one, its bytes are the head of the bytes. -/
theorem takeImm_eq_some {icode : Nibble} {bs rest : List Byte} {v : Word} :
    takeImm icode bs = some (v, rest) ↔
      if needImm icode then bs = bytesOfWord v ++ rest else v = 0 ∧ bs = rest := by
  unfold takeImm
  split
  · split
    · next b0 b1 b2 b3 b4 b5 b6 b7 bs =>
      simp only [Option.some.injEq, Prod.mk.injEq]
      constructor
      · rintro ⟨rfl, rfl⟩; simp [bytesOfWord_wordOfBytes]
      · intro h
        simp only [bytesOfWord, List.cons_append, List.nil_append, List.cons.injEq] at h
        obtain ⟨rfl, rfl, rfl, rfl, rfl, rfl, rfl, rfl, rfl⟩ := h
        exact ⟨Machine.wordOfBytes_byteOfWord v, rfl⟩
    · next h =>
      simp only [reduceCtorEq, false_iff]
      rintro rfl
      exact h _ _ _ _ _ _ _ _ _ rfl
  · simp only [Option.some.injEq, Prod.mk.injEq, eq_comm]

/-- What a successful decode of fields says of the bytes: the class is defined, the sub-function is not reserved, and the
bytes are the fields' own followed by the rest. -/
theorem decodeFields_eq_ok {bs rest : List Byte} {f : Fields} :
    decodeFields bs = .ok f rest ↔
      f.icode.toNat ≤ 11 ∧ reservedFn f.icode f.ifun = false ∧
        (needRegs f.icode = false → f.rA = 15 ∧ f.rB = 15) ∧ (needImm f.icode = false → f.valC = 0) ∧
        bs = encodeFields f ++ rest := by
  cases bs with
  | nil => simp [decodeFields, encodeFields]
  | cons b bs =>
    obtain ⟨icode, ifun, rA, rB, valC⟩ := f
    obtain ⟨hi, lo, rfl⟩ : ∃ hi lo, b = byteOfNibbles hi lo := ⟨_, _, (byteOfNibbles_nibbles b).symm⟩
    simp only [decodeFields, hiNibble_byteOfNibbles, loNibble_byteOfNibbles]
    have inj : byteOfNibbles hi lo = byteOfNibbles icode ifun ↔ hi = icode ∧ lo = ifun := by
      constructor
      · intro h
        exact ⟨by simpa using congrArg hiNibble h, by simpa using congrArg loNibble h⟩
      · rintro ⟨rfl, rfl⟩; rfl
    simp only [encodeFields, List.cons_append, List.cons.injEq, inj]
    split
    · next h => simp only [reduceCtorEq, false_iff]; rintro ⟨h1, _, _, _, ⟨rfl, rfl⟩, _⟩; omega
    · next h =>
      split
      · next h' => simp only [reduceCtorEq, false_iff]; rintro ⟨_, h2, _, _, ⟨rfl, rfl⟩, _⟩; simp_all
      · next h' =>
        constructor
        · intro e
          split at e
          · cases e
          · next rA' rB' bs' h1 =>
            split at e
            · cases e
            · next v rest' h2 =>
              simp only [Decoded.ok.injEq, Fields.mk.injEq] at e
              obtain ⟨⟨rfl, rfl, rfl, rfl, rfl⟩, rfl⟩ := e
              rw [takeRegs_eq_some] at h1
              rw [takeImm_eq_some] at h2
              cases hr : needRegs hi <;> cases hm : needImm hi <;> simp_all
        · rintro ⟨h1, h2, h3, h4, ⟨rfl, rfl⟩, hb⟩
          have e1 : takeRegs hi bs = some (rA, rB, (if needImm hi then bytesOfWord valC else []) ++ rest) := by
            rw [takeRegs_eq_some]
            cases hr : needRegs hi <;> simp_all
          have e2 : takeImm hi ((if needImm hi then bytesOfWord valC else []) ++ rest) = some (valC, rest) := by
            rw [takeImm_eq_some]
            cases hm : needImm hi <;> simp_all
          rw [e1]; simp only; rw [e2]

/-- Fields that `decode` reads as an instruction. -/
theorem decode_eq_ok {bs rest : List Byte} {i : Instr} :
    decode bs = .ok i rest ↔ ∃ f, decodeFields bs = .ok f rest ∧ f.instr? = some i := by
  unfold decode
  split
  · next r h => simp [h]
  · next f rest' h =>
    rw [h]
    split
    · next j hj =>
      simp only [Decoded.ok.injEq]
      constructor
      · rintro ⟨rfl, rfl⟩; exact ⟨f, ⟨rfl, rfl⟩, hj⟩
      · rintro ⟨g, ⟨rfl, rfl⟩, hg⟩; rw [hj] at hg; exact ⟨Option.some.inj hg, rfl⟩
    · next hj =>
      simp only [reduceCtorEq, Decoded.ok.injEq, false_iff]
      rintro ⟨g, ⟨rfl, rfl⟩, hg⟩; rw [hj] at hg; cases hg

end Sys2Proof
end

