-- ==== Sys2Proof/Laws/State.lean ====
section
/-!
SUPPORT. The small lemmas of the state updates: one per field per update, and what a register read gives after each. Later
proofs cite them (most by simp) and unfold no record update.
-/

namespace Sys2Proof.Machine

section fields
variable (s : State) (p : Word) (f : Flags) (st : Status) (r : RegId) (v : Word)

@[simp] theorem setPc_regs : (setPc s p).regs = s.regs := rfl
@[simp] theorem setPc_flags : (setPc s p).flags = s.flags := rfl
@[simp] theorem setPc_pc : (setPc s p).pc = p := rfl
@[simp] theorem setPc_status : (setPc s p).status = s.status := rfl
@[simp] theorem setPc_mem : (setPc s p).mem = s.mem := rfl
@[simp] theorem setPc_cfg : (setPc s p).cfg = s.cfg := rfl

@[simp] theorem setFlags_regs : (setFlags s f).regs = s.regs := rfl
@[simp] theorem setFlags_flags : (setFlags s f).flags = f := rfl
@[simp] theorem setFlags_pc : (setFlags s f).pc = s.pc := rfl
@[simp] theorem setFlags_status : (setFlags s f).status = s.status := rfl
@[simp] theorem setFlags_mem : (setFlags s f).mem = s.mem := rfl
@[simp] theorem setFlags_cfg : (setFlags s f).cfg = s.cfg := rfl

@[simp] theorem raise_regs : (raise s st).regs = s.regs := rfl
@[simp] theorem raise_flags : (raise s st).flags = s.flags := rfl
@[simp] theorem raise_pc : (raise s st).pc = s.pc := rfl
@[simp] theorem raise_status : (raise s st).status = st := rfl
@[simp] theorem raise_mem : (raise s st).mem = s.mem := rfl
@[simp] theorem raise_cfg : (raise s st).cfg = s.cfg := rfl

@[simp] theorem writeReg_none : writeReg s .none v = s := rfl
@[simp] theorem writeReg_flags : (writeReg s r v).flags = s.flags := by cases r <;> rfl
@[simp] theorem writeReg_pc : (writeReg s r v).pc = s.pc := by cases r <;> rfl
@[simp] theorem writeReg_status : (writeReg s r v).status = s.status := by cases r <;> rfl
@[simp] theorem writeReg_mem : (writeReg s r v).mem = s.mem := by cases r <;> rfl
@[simp] theorem writeReg_cfg : (writeReg s r v).cfg = s.cfg := by cases r <;> rfl

@[simp] theorem placeBytes_regs (a : Nat) (bs : List Byte) : (placeBytes s a bs).regs = s.regs := rfl
@[simp] theorem placeBytes_flags (a : Nat) (bs : List Byte) : (placeBytes s a bs).flags = s.flags := rfl
@[simp] theorem placeBytes_pc (a : Nat) (bs : List Byte) : (placeBytes s a bs).pc = s.pc := rfl
@[simp] theorem placeBytes_status (a : Nat) (bs : List Byte) : (placeBytes s a bs).status = s.status := rfl
@[simp] theorem placeBytes_cfg (a : Nat) (bs : List Byte) : (placeBytes s a bs).cfg = s.cfg := rfl

@[simp] theorem readReg_none : readReg s .none = 0 := rfl
@[simp] theorem readReg_setPc : readReg (setPc s p) r = readReg s r := by cases r <;> rfl
@[simp] theorem readReg_setFlags : readReg (setFlags s f) r = readReg s r := by cases r <;> rfl
@[simp] theorem readReg_raise : readReg (raise s st) r = readReg s r := by cases r <;> rfl

end fields

/-- A register read after a register write: the written value at the written register, unless that is "none" (R13). -/
theorem readReg_writeReg (s : State) (r q : RegId) (v : Word) :
    readReg (writeReg s r v) q = if q = r ∧ r ≠ .none then v else readReg s q := by
  cases r with
  | none => simp
  | slot i =>
    cases q with
    | none => simp
    | slot j =>
      simp only [writeReg, readReg, Fin.getElem_fin, Vector.getElem_set, RegId.slot.injEq, ne_eq, reduceCtorEq,
        not_false_eq_true, and_true, Fin.ext_iff, eq_comm]

/-- A read of the register just written, where it is one of the 15. -/
@[simp] theorem readReg_writeReg_same (s : State) (i : Fin 15) (v : Word) :
    readReg (writeReg s (.slot i) v) (.slot i) = v := by simp [readReg_writeReg]

/-- A read of another register than the one written. -/
theorem readReg_writeReg_other (s : State) {r q : RegId} (v : Word) (h : q ≠ r) :
    readReg (writeReg s r v) q = readReg s q := by simp [readReg_writeReg, h]

/-- Two states are one when every field is, the registers by their reads. -/
theorem State.ext_reads {s t : State} (hr : ∀ r, readReg s r = readReg t r) (hf : s.flags = t.flags)
    (hp : s.pc = t.pc) (hs : s.status = t.status) (hm : s.mem = t.mem) (hc : s.cfg = t.cfg) : s = t := by
  obtain ⟨sr, _, _, _, _, _⟩ := s
  obtain ⟨tr, _, _, _, _, _⟩ := t
  have : sr = tr := by
    ext i hi : 1
    exact hr (.slot ⟨i, hi⟩)
  simp_all

end Sys2Proof.Machine
end

