-- ==== Sys2Proof/Laws/Ops.lean ====
section
/-!
SUPPORT. What each shared operation can do, said once: the bounds-checked accesses, the load and the store of the memory
stage, the bytes a fetch sees, and the ALU on the constant inputs.
-/

namespace Sys2Proof.Machine

theorem inBounds_iff {s : State} {a : Word} {n : Nat} : inBounds s a n = true ↔ a.toNat + n ≤ s.cfg.capacity := by
  simp [inBounds]

/-- A load of the memory stage: the value goes on where the eight bytes lie inside memory, and `ADR` is raised elsewhere. -/
theorem withLoad_eq (s : State) (a : Word) (k : Word → State) :
    withLoad s a k = if a.toNat + 8 ≤ s.cfg.capacity then k (s.mem.getWord a.toNat) else raise s .adr := by
  unfold withLoad memRead8 inBounds
  by_cases h : a.toNat + 8 ≤ s.cfg.capacity <;> simp [h]

/-- A store of the memory stage: the write is made and goes on where the eight bytes lie inside memory, and `ADR` is raised
elsewhere. -/
theorem withStore_eq (s : State) (a v : Word) (k : State → State) :
    withStore s a v k =
      if a.toNat + 8 ≤ s.cfg.capacity then k { s with mem := s.mem.setWord a.toNat v } else raise s .adr := by
  unfold withStore memWrite8 inBounds
  by_cases h : a.toNat + 8 ≤ s.cfg.capacity <;> simp [h]

/-- The bytes from an address on: byte `k` is there below the count and below C. -/
theorem bytesAt_getElem? (s : State) (a n k : Nat) :
    (bytesAt s a n)[k]? = if k < n ∧ a + k < s.cfg.capacity then some (s.mem.get (a + k)) else none := by
  induction n generalizing a k with
  | zero => simp [bytesAt]
  | succ n ih =>
    by_cases h : a < s.cfg.capacity
    · cases k with
      | zero => simp [bytesAt, h]
      | succ k =>
        have e : a + 1 + k = a + (k + 1) := by omega
        simp [bytesAt, h, ih, e]
    · have : ¬ a + k < s.cfg.capacity := by omega
      simp [bytesAt, h, this]

/-- How many bytes there are from an address on. -/
theorem bytesAt_length (s : State) (a n : Nat) : (bytesAt s a n).length = min n (s.cfg.capacity - a) := by
  induction n generalizing a with
  | zero => simp [bytesAt]
  | succ n ih =>
    by_cases h : a < s.cfg.capacity
    · simp [bytesAt, h, ih]; omega
    · simp [bytesAt, h]; omega

/-- A fetch sees memory and the capacity at `pc` only. -/
theorem bytesAt_congr {s t : State} (hm : s.mem = t.mem) (hc : s.cfg = t.cfg) (a n : Nat) :
    bytesAt s a n = bytesAt t a n := by
  induction n generalizing a with
  | zero => rfl
  | succ n ih => simp [bytesAt, hm, hc, ih]

/-- Placing bytes keeps the canonical form, and lists no address at or above C that was not listed before. -/
theorem placeBytes_wf {s : State} (h : s.mem.wf) (a : Nat) (bs : List Byte) : (placeBytes s a bs).mem.wf :=
  Memory.wf_setBytes h a _

theorem placeBytes_listed {s : State} {a : Nat} {bs : List Byte} {c : Host.Cell} (h : c ∈ (placeBytes s a bs).mem) :
    c.1 < s.cfg.capacity ∨ c ∈ s.mem := by
  rcases Memory.listed_setBytes h with h | h
  · simp only [List.length_take] at h
    exact .inl (by omega)
  · exact .inr h

/-- Where push and call store: eight below the stack pointer. -/
theorem pushAddress_eq (s : State) : pushAddress s = readReg s rsp - 8 := by
  rw [pushAddress, show BitVec.ofInt 64 (-8) = -(8 : Word) from by decide, BitVec.add_comm, ← BitVec.sub_eq_add_neg]

/-- The ALU result with the constant first inputs of R73: the two stack pointer adjustments. -/
theorem aluResult_minus8 (b : Word) : aluResult .add (BitVec.ofInt 64 (-8)) b = b - 8 := by
  rw [aluResult, show BitVec.ofInt 64 (-8) = -(8 : Word) from by decide, BitVec.add_comm, ← BitVec.sub_eq_add_neg]

theorem aluResult_plus8 (b : Word) : aluResult .add 8 b = b + 8 := BitVec.add_comm _ _

/-- The ALU result with the second input zero of R73: the first input goes through. -/
theorem aluResult_zero (a : Word) : aluResult .add a 0 = a := BitVec.add_zero a

end Sys2Proof.Machine
end

