-- ==== Sys2Proof/Laws/PerInstr.lean ====
section
/-!
SUPPORT. Statements about every instruction as syntax, one lemma per constructor: the fields it is encoded with are well
formed (`WellFormed`), and its bytes are as many as its class says (`EncodedLength`, spec/30_encoding.md rules R50, R56).
-/

namespace Sys2Proof.Laws

def WellFormed.Statement (i : Instr) : Prop := i.wellFormed = true

def EncodedLength.Statement (i : Instr) : Prop := (encode i).length = i.length

theorem WellFormed.halt : WellFormed.Statement .halt := rfl
theorem WellFormed.nop : WellFormed.Statement .nop := rfl
theorem WellFormed.rrmovq (rA : RegId) (rB : RegId) : WellFormed.Statement (.rrmovq rA rB) := rfl
theorem WellFormed.cmovle (rA : RegId) (rB : RegId) : WellFormed.Statement (.cmovle rA rB) := rfl
theorem WellFormed.cmovl (rA : RegId) (rB : RegId) : WellFormed.Statement (.cmovl rA rB) := rfl
theorem WellFormed.cmove (rA : RegId) (rB : RegId) : WellFormed.Statement (.cmove rA rB) := rfl
theorem WellFormed.cmovne (rA : RegId) (rB : RegId) : WellFormed.Statement (.cmovne rA rB) := rfl
theorem WellFormed.cmovge (rA : RegId) (rB : RegId) : WellFormed.Statement (.cmovge rA rB) := rfl
theorem WellFormed.cmovg (rA : RegId) (rB : RegId) : WellFormed.Statement (.cmovg rA rB) := rfl
theorem WellFormed.irmovq (imm : Word) (rB : RegId) : WellFormed.Statement (.irmovq imm rB) := rfl
theorem WellFormed.rmmovq (rA : RegId) (disp : Word) (rB : RegId) : WellFormed.Statement (.rmmovq rA disp rB) := rfl
theorem WellFormed.mrmovq (disp : Word) (rB : RegId) (rA : RegId) : WellFormed.Statement (.mrmovq disp rB rA) := rfl
theorem WellFormed.addq (rA : RegId) (rB : RegId) : WellFormed.Statement (.addq rA rB) := rfl
theorem WellFormed.subq (rA : RegId) (rB : RegId) : WellFormed.Statement (.subq rA rB) := rfl
theorem WellFormed.andq (rA : RegId) (rB : RegId) : WellFormed.Statement (.andq rA rB) := rfl
theorem WellFormed.xorq (rA : RegId) (rB : RegId) : WellFormed.Statement (.xorq rA rB) := rfl
theorem WellFormed.jmp (dest : Word) : WellFormed.Statement (.jmp dest) := rfl
theorem WellFormed.jle (dest : Word) : WellFormed.Statement (.jle dest) := rfl
theorem WellFormed.jl (dest : Word) : WellFormed.Statement (.jl dest) := rfl
theorem WellFormed.je (dest : Word) : WellFormed.Statement (.je dest) := rfl
theorem WellFormed.jne (dest : Word) : WellFormed.Statement (.jne dest) := rfl
theorem WellFormed.jge (dest : Word) : WellFormed.Statement (.jge dest) := rfl
theorem WellFormed.jg (dest : Word) : WellFormed.Statement (.jg dest) := rfl
theorem WellFormed.call (dest : Word) : WellFormed.Statement (.call dest) := rfl
theorem WellFormed.ret : WellFormed.Statement .ret := rfl
theorem WellFormed.pushq (rA : RegId) : WellFormed.Statement (.pushq rA) := rfl
theorem WellFormed.popq (rA : RegId) : WellFormed.Statement (.popq rA) := rfl

theorem EncodedLength.halt : EncodedLength.Statement .halt := rfl
theorem EncodedLength.nop : EncodedLength.Statement .nop := rfl
theorem EncodedLength.rrmovq (rA : RegId) (rB : RegId) : EncodedLength.Statement (.rrmovq rA rB) := rfl
theorem EncodedLength.cmovle (rA : RegId) (rB : RegId) : EncodedLength.Statement (.cmovle rA rB) := rfl
theorem EncodedLength.cmovl (rA : RegId) (rB : RegId) : EncodedLength.Statement (.cmovl rA rB) := rfl
theorem EncodedLength.cmove (rA : RegId) (rB : RegId) : EncodedLength.Statement (.cmove rA rB) := rfl
theorem EncodedLength.cmovne (rA : RegId) (rB : RegId) : EncodedLength.Statement (.cmovne rA rB) := rfl
theorem EncodedLength.cmovge (rA : RegId) (rB : RegId) : EncodedLength.Statement (.cmovge rA rB) := rfl
theorem EncodedLength.cmovg (rA : RegId) (rB : RegId) : EncodedLength.Statement (.cmovg rA rB) := rfl
theorem EncodedLength.irmovq (imm : Word) (rB : RegId) : EncodedLength.Statement (.irmovq imm rB) := rfl
theorem EncodedLength.rmmovq (rA : RegId) (disp : Word) (rB : RegId) : EncodedLength.Statement (.rmmovq rA disp rB) := rfl
theorem EncodedLength.mrmovq (disp : Word) (rB : RegId) (rA : RegId) : EncodedLength.Statement (.mrmovq disp rB rA) := rfl
theorem EncodedLength.addq (rA : RegId) (rB : RegId) : EncodedLength.Statement (.addq rA rB) := rfl
theorem EncodedLength.subq (rA : RegId) (rB : RegId) : EncodedLength.Statement (.subq rA rB) := rfl
theorem EncodedLength.andq (rA : RegId) (rB : RegId) : EncodedLength.Statement (.andq rA rB) := rfl
theorem EncodedLength.xorq (rA : RegId) (rB : RegId) : EncodedLength.Statement (.xorq rA rB) := rfl
theorem EncodedLength.jmp (dest : Word) : EncodedLength.Statement (.jmp dest) := rfl
theorem EncodedLength.jle (dest : Word) : EncodedLength.Statement (.jle dest) := rfl
theorem EncodedLength.jl (dest : Word) : EncodedLength.Statement (.jl dest) := rfl
theorem EncodedLength.je (dest : Word) : EncodedLength.Statement (.je dest) := rfl
theorem EncodedLength.jne (dest : Word) : EncodedLength.Statement (.jne dest) := rfl
theorem EncodedLength.jge (dest : Word) : EncodedLength.Statement (.jge dest) := rfl
theorem EncodedLength.jg (dest : Word) : EncodedLength.Statement (.jg dest) := rfl
theorem EncodedLength.call (dest : Word) : EncodedLength.Statement (.call dest) := rfl
theorem EncodedLength.ret : EncodedLength.Statement .ret := rfl
theorem EncodedLength.pushq (rA : RegId) : EncodedLength.Statement (.pushq rA) := rfl
theorem EncodedLength.popq (rA : RegId) : EncodedLength.Statement (.popq rA) := rfl

end Sys2Proof.Laws
end

