-- ==== Sys2Proof/Laws/Step.lean ====
section
/-!
SUPPORT. What an instruction and a step can do, said once: `exec_cases` and `step_cases`. Invariants are derived from these
two and unfold neither `exec` nor `step`.
-/

namespace Sys2Proof.Machine

/-- What executing an instruction can do to the state, without the register values: it halts, or its data access lies outside
memory and it raises `ADR`, or it goes on, with memory as it was or with eight bytes stored at its store address. -/
theorem exec_cases {i : Instr} {s t : State} (h : exec i s = .next t) :
    (i = .halt ∧ t = raise s .hlt) ∨ (dataOutside i s ∧ t = raise s .adr) ∨
      (t.status = s.status ∧ t.cfg = s.cfg ∧
        ((storeAddress? i s = none ∧ t.mem = s.mem) ∨
          ∃ a v, storeAddress? i s = some a ∧ storeData? i s = some v ∧ a.toNat + 8 ≤ s.cfg.capacity ∧
            t.mem = s.mem.setWord a.toNat v)) := by
  cases i
  case halt => cases h; exact .inl ⟨rfl, rfl⟩
  case rmmovq | call | pushq =>
    simp only [exec, execRmmovq, execCall, execPushq, withStore_eq, Host.Outcome.next.injEq] at h
    split at h
    · next hb => subst h; exact .inr (.inr ⟨by simp, by simp, .inr ⟨_, _, rfl, rfl, hb, by simp⟩⟩)
    · next hb => exact .inr (.inl ⟨.inr ⟨_, rfl, Nat.not_le.mp hb⟩, h.symm⟩)
  case mrmovq | ret | popq =>
    simp only [exec, execMrmovq, execRet, execPopq, withLoad_eq, Host.Outcome.next.injEq] at h
    split at h
    · next hb => subst h; exact .inr (.inr ⟨by simp, by simp, .inl ⟨rfl, by simp⟩⟩)
    · next hb => exact .inr (.inl ⟨.inl ⟨_, rfl, Nat.not_le.mp hb⟩, h.symm⟩)
  all_goals
    cases h
    exact .inr (.inr ⟨by simp [moveIf, aluOp, jumpIf], by simp [moveIf, aluOp, jumpIf],
      .inl ⟨rfl, by simp [moveIf, aluOp, jumpIf]⟩⟩)

/-- Executing an instruction whose data access lies outside memory raises `ADR`. -/
theorem exec_of_dataOutside {i : Instr} {s : State} (h : dataOutside i s) : exec i s = .next (raise s .adr) := by
  rcases h with ⟨a, ha, hb⟩ | ⟨a, ha, hb⟩ <;> cases i <;> simp only [loadAddress?, storeAddress?, reduceCtorEq,
    Option.some.injEq] at ha <;> subst ha <;>
    simp only [exec, execRmmovq, execMrmovq, execCall, execRet, execPushq, execPopq, withLoad_eq, withStore_eq,
      Nat.not_le.mpr hb, if_false]

/-- What a step can do: nothing at a terminal status; the decoded instruction's meaning; or what the rejection of the bytes
at `pc` does. -/
theorem step_cases {s t : State} (h : step s = .next t) :
    (s.status ≠ .aok ∧ t = s) ∨
      (s.status = .aok ∧ ∃ i rest, decode (fetchBytes s) = .ok i rest ∧ exec i s = .next t) ∨
      (s.status = .aok ∧ ∃ r, decode (fetchBytes s) = .reject r ∧ rejectCycle r s = .next t) := by
  unfold step at h
  split at h
  · next hr =>
    have hr : s.status = .aok := by simpa [running] using hr
    split at h
    · next i rest hd => exact .inr (.inl ⟨hr, i, rest, hd, h⟩)
    · next r hd => exact .inr (.inr ⟨hr, r, hd, h⟩)
  · next hr =>
    simp only [Host.Outcome.next.injEq] at h
    exact .inl ⟨by simpa [running] using hr, h.symm⟩

/-- What a rejection does when it answers a state: a byte outside memory raises `ADR`; an undefined class, and a reserved
sub-function under `ins_fault`, raise `INS`. -/
theorem rejectCycle_cases {r : Reject} {s t : State} (h : rejectCycle r s = .next t) :
    (t = raise s .adr ∧ (r = .noOpcode ∨ r = .noRegisterByte ∨ r = .noImmediate)) ∨
      (t = raise s .ins ∧ ((∃ n, r = .invalidClass n) ∨
        (s.cfg.reservedPolicy = .insFault ∧ ∃ m n, r = .reservedFunction m n))) := by
  cases r with
  | reservedFunction m n =>
    simp only [rejectCycle] at h
    split at h
    · cases h
    · next hp => cases h; exact .inr ⟨rfl, .inr ⟨hp, m, n, rfl⟩⟩
  | noOpcode => cases h; exact .inl ⟨rfl, by simp⟩
  | noRegisterByte => cases h; exact .inl ⟨rfl, by simp⟩
  | noImmediate => cases h; exact .inl ⟨rfl, by simp⟩
  | invalidClass n => cases h; exact .inr ⟨rfl, .inl ⟨n, rfl⟩⟩

/-- A running machine's step on rejected bytes. -/
theorem step_of_reject {s : State} {r : Reject} (hs : s.status = .aok)
    (hd : decode (fetchBytes s) = .reject r) : step s = rejectCycle r s := by
  simp [step, running, hs, hd]

/-- A terminal machine's step. -/
theorem step_of_terminal {s : State} (hs : s.status ≠ .aok) : step s = .next s := by
  simp [step, running, hs]

end Sys2Proof.Machine
end

