-- ==== Sys2Proof/Tests/Slice0.lean ====
section
/-!
SUPPORT. Small tests of the model and the witnesses of the statements' hypotheses. Every expected value comes from the spec:
the encoding tables of spec/30_encoding.md, the examples of the family files, the vectors of spec/95_test_vectors.md.
-/

namespace Sys2Proof.Tests

open Sys2Proof.Machine

/-! ## Helpers -/

/-- The reset state with some registers and the flags set. -/
def start (rs : List (RegId × Word)) (zf sf of : Bool := false) : State :=
  setFlags (rs.foldl (fun s p => writeReg s p.1 p.2) State.reset) ⟨zf, sf, of⟩

/-- The state after one step, with the given bytes placed at `pc`. -/
def after (s : State) (bs : List Byte) : Option State := next? (step (placeProgram s bs))

/-- A register, the program counter and the status after one step. -/
def view (s : State) (bs : List Byte) (r : RegId) : Option (Word × Word × Status) :=
  (after s bs).map fun t => (readReg t r, t.pc, t.status)

/-- A register and the three flags after one step. -/
def viewFlags (s : State) (bs : List Byte) (r : RegId) : Option (Word × Bool × Bool × Bool) :=
  (after s bs).map fun t => (readReg t r, t.flags.zf, t.flags.sf, t.flags.of)

/-- Eight bytes of memory, the stack pointer, the program counter and the status after one step. -/
def viewMem (s : State) (bs : List Byte) (a : Nat) : Option (List Byte × Word × Word × Status) :=
  (after s bs).map fun t => ((List.range 8).map fun k => t.mem.get (a + k), readReg t .rsp, t.pc, t.status)

/-- The reset state at another capacity and policy. -/
def machine (capacity : Nat) (policy : ReservedFnPolicy := .refuse) : State := State.resetWith ⟨capacity, policy⟩

/-! ## Ill-formed fields are refused, one for each check of WellFormed -/

theorem test_wellFormed_class : Fields.wellFormed ⟨12, 0, 15, 15, 0⟩ = false := by decide
theorem test_wellFormed_condition :
    Fields.wellFormed ⟨2, 7, 0, 1, 0⟩ = false ∧ Fields.wellFormed ⟨7, 7, 15, 15, 0⟩ = false := by decide
theorem test_wellFormed_aluFunction : Fields.wellFormed ⟨6, 4, 0, 1, 0⟩ = false := by decide
theorem test_wellFormed_registers : Fields.wellFormed ⟨7, 0, 3, 15, 0⟩ = false := by decide
theorem test_wellFormed_immediate : Fields.wellFormed ⟨6, 0, 0, 1, 5⟩ = false := by decide
theorem test_wellFormed_accepts :
    Fields.wellFormed ⟨2, 6, 0, 1, 0⟩ = true ∧ Fields.wellFormed ⟨6, 3, 15, 15, 0⟩ = true ∧
      Fields.wellFormed ⟨11, 9, 4, 0, 0⟩ = true ∧ Fields.wellFormed ⟨3, 15, 1, 3, 9⟩ = true := by decide

/-! ## Decoding: words written out from the tables of spec/30_encoding.md rules R52 to R58, R65 -/

theorem test_decode_haltNop : decode [0x00] = .ok .halt [] ∧ decode [0x10] = .ok .nop [] := by decide
theorem test_decode_moves :
    decode [0x20, 0x01] = .ok (.rrmovq .rax .rcx) [] ∧ decode [0x21, 0x12] = .ok (.cmovle .rcx .rdx) [] ∧
    decode [0x22, 0x34] = .ok (.cmovl .rbx .rsp) [] ∧ decode [0x23, 0x56] = .ok (.cmove .rbp .rsi) [] ∧
    decode [0x24, 0x78] = .ok (.cmovne .rdi .r8) [] ∧ decode [0x25, 0x9a] = .ok (.cmovge .r9 .r10) [] ∧
    decode [0x26, 0xbf] = .ok (.cmovg .r11 .none) [] := by decide
theorem test_decode_irmovq :
    decode [0x30, 0xf4, 0xf8, 0xff, 0xff, 0xff, 0xff, 0xff, 0xff, 0xff, 0xaa] =
      .ok (.irmovq 0xFFFFFFFFFFFFFFF8 .rsp) [0xaa] := by decide
theorem test_decode_loadStore :
    decode [0x40, 0x15, 0xf8, 0xff, 0xff, 0xff, 0xff, 0xff, 0xff, 0xff] =
      .ok (.rmmovq .rcx 0xFFFFFFFFFFFFFFF8 .rbp) [] ∧
    decode [0x50, 0x26, 0x10, 0, 0, 0, 0, 0, 0, 0] = .ok (.mrmovq 16 .rsi .rdx) [] := by decide
theorem test_decode_alu :
    decode [0x60, 0x03] = .ok (.addq .rax .rbx) [] ∧ decode [0x61, 0x8e] = .ok (.subq .r8 .r14) [] ∧
    decode [0x62, 0xcd] = .ok (.andq .r12 .r13) [] ∧ decode [0x63, 0xf0] = .ok (.xorq .none .rax) [] := by decide
theorem test_decode_jumps :
    decode [0x70, 0x20, 0, 0, 0, 0, 0, 0, 0] = .ok (.jmp 0x20) [] ∧
    decode [0x71, 0x21, 0, 0, 0, 0, 0, 0, 0] = .ok (.jle 0x21) [] ∧
    decode [0x72, 0x22, 0, 0, 0, 0, 0, 0, 0] = .ok (.jl 0x22) [] ∧
    decode [0x73, 0x23, 0, 0, 0, 0, 0, 0, 0] = .ok (.je 0x23) [] ∧
    decode [0x74, 0x16, 0, 0, 0, 0, 0, 0, 0] = .ok (.jne 0x16) [] ∧
    decode [0x75, 0xef, 0xcd, 0xab, 0x89, 0x67, 0x45, 0x23, 0x01] = .ok (.jge 0x0123456789ABCDEF) [] ∧
    decode [0x76, 0, 0, 0, 0, 0, 0, 0, 0x80] = .ok (.jg 0x8000000000000000) [] := by decide
theorem test_decode_callRet :
    decode [0x80, 0x00, 0x01, 0, 0, 0, 0, 0, 0] = .ok (.call 0x100) [] ∧ decode [0x90, 0x77] = .ok .ret [0x77] := by decide
theorem test_decode_pushPop :
    decode [0xa0, 0x5f] = .ok (.pushq .rbp) [] ∧ decode [0xb0, 0xaf] = .ok (.popq .r10) [] := by decide
/-- The ignored nibbles (table V1, R59, R62). -/
theorem test_decode_ignored :
    decode [0x0f] = .ok .halt [] ∧ decode [0x1f] = .ok .nop [] ∧
    decode [0x3f, 0x13, 0x09, 0, 0, 0, 0, 0, 0, 0] = .ok (.irmovq 9 .rbx) [] ∧
    decode [0xa5, 0x72] = .ok (.pushq .rdi) [] := by decide
/-- The rejections, in the order of R63. -/
theorem test_decode_rejects :
    decode [] = .reject .noOpcode ∧ decode [0xc0] = .reject (.invalidClass 12) ∧
    decode [0xff] = .reject (.invalidClass 15) ∧ decode [0x64] = .reject (.reservedFunction 6 4) ∧
    decode [0x27] = .reject (.reservedFunction 2 7) ∧ decode [0x7f] = .reject (.reservedFunction 7 15) ∧
    decode [0x60] = .reject .noRegisterByte ∧ decode [0x70, 0, 0, 0, 0, 0, 0, 0] = .reject .noImmediate := by decide
/-- R64: of the 256 first bytes, 64 are invalid and 30 reserved. -/
theorem test_decode_counts :
    ((List.range 256).filter fun b => 11 < (hiNibble (BitVec.ofNat 8 b)).toNat).length = 64 ∧
    ((List.range 256).filter fun b =>
      reservedFn (hiNibble (BitVec.ofNat 8 b)) (loNibble (BitVec.ofNat 8 b))).length = 30 := by decide
theorem test_encode_canonical :
    encode (.irmovq 7 .rbx) = [0x30, 0xf3, 0x07, 0, 0, 0, 0, 0, 0, 0] ∧ encode (.pushq .rbp) = [0xa0, 0x5f] ∧
    encode (.jge 0x0123456789ABCDEF) = [0x75, 0xef, 0xcd, 0xab, 0x89, 0x67, 0x45, 0x23, 0x01] ∧
    encode .halt = [0x00] := by decide
/-- The table's numbering: the first byte is the low one. -/
theorem test_decodeTableWord :
    decodeTableWord 16 0x0360 = some (.addq .rax .rbx) ∧ decodeTableWord 8 0x30 = some (.irmovq 0 .rax) ∧
    decodeTableWord 8 0xc0 = none := by decide
theorem test_withFetchWord :
    (next? (step (State.reset.withFetchWord 16 0x0360))).map (fun t => (t.pc, t.status)) = some (2, .aok) ∧
    (next? (step ((raise State.reset .hlt).withFetchWord 8 0x10))).map (fun t => (t.pc, t.status)) = some (1, .aok) := by
  decide

/-! ## One step of each instruction -/

/-- Scenarios A and D (S1, S4) and X7. -/
theorem test_halt : view State.reset [0x00] .rax = some (0, 0, .hlt) ∧
    view (setPc State.reset 0x16) [0x0f] .rax = some (0, 0x16, .hlt) := by decide
theorem test_invalid : view State.reset [0xf0] .rax = some (0, 0, .ins) ∧
    view (setPc State.reset 0xffff) [0xff] .rax = some (0, 0xffff, .ins) := by decide
theorem test_fetchOutside :
    view (setPc State.reset 0x10000) [] .rax = some (0, 0x10000, .adr) ∧
    view (setPc State.reset 0xFFFFFFFFFFFFFFFF) [] .rax = some (0, 0xFFFFFFFFFFFFFFFF, .adr) := by decide
/-- X3, X4, X5. -/
theorem test_fetchStraddles :
    view (setPc State.reset 0xffff) [0x30] .rax = some (0, 0xffff, .adr) ∧
    view (setPc State.reset 0xfff7) [0x30, 0xf0] .rax = some (0, 0xfff7, .adr) ∧
    view (setPc State.reset 0xfff6) [0x30, 0xf0, 0x77, 0, 0, 0, 0, 0, 0, 0] .rax = some (0x77, 0x10000, .aok) := by decide
/-- X9. -/
theorem test_reserved :
    after (machine 65536) [0x64, 0x01] = none ∧ view (machine 65536 .insFault) [0x64, 0x01] .rax = some (0, 0, .ins) := by
  decide
theorem test_nop : view State.reset [0x10] .rax = some (0, 1, .aok) ∧
    view (setPc State.reset 0xffff) [0x1f] .rax = some (0, 0x10000, .aok) := by decide
theorem test_rrmovq : view (setPc (start [(.rax, 0x1122334455667788)]) 0xa) [0x20, 0x01] .rcx =
    some (0x1122334455667788, 0xc, .aok) := by decide
theorem test_cmovle :
    view (start [(.rcx, 2), (.rdx, 9)] (sf := true)) [0x21, 0x12] .rdx = some (2, 2, .aok) ∧
    view (start [(.rcx, 2), (.rdx, 9)]) [0x21, 0x12] .rdx = some (9, 2, .aok) := by decide
theorem test_cmovl :
    view (start [(.rcx, 2), (.rdx, 9)] (sf := true)) [0x22, 0x12] .rdx = some (2, 2, .aok) ∧
    view (start [(.rcx, 2), (.rdx, 9)] (sf := true) (of := true)) [0x22, 0x12] .rdx = some (9, 2, .aok) := by decide
theorem test_cmove :
    view (start [(.rax, 7)] (zf := true)) [0x23, 0x03] .rbx = some (7, 2, .aok) ∧
    view (start [(.rax, 7)]) [0x23, 0x03] .rbx = some (0, 2, .aok) := by decide
theorem test_cmovne :
    view (start [(.rax, 7)]) [0x24, 0x03] .rbx = some (7, 2, .aok) ∧
    view (start [(.rax, 7)] (zf := true)) [0x24, 0x03] .rbx = some (0, 2, .aok) := by decide
theorem test_cmovge :
    view (start [(.rcx, 2), (.rdx, 9)]) [0x25, 0x12] .rdx = some (2, 2, .aok) ∧
    view (start [(.rcx, 2), (.rdx, 9)] (sf := true)) [0x25, 0x12] .rdx = some (9, 2, .aok) := by decide
theorem test_cmovg :
    view (start [(.rcx, 2), (.rdx, 9)]) [0x26, 0x12] .rdx = some (2, 2, .aok) ∧
    view (start [(.rcx, 2), (.rdx, 9)] (sf := true)) [0x26, 0x12] .rdx = some (9, 2, .aok) := by decide
/-- Table V3: columns le, l, e, ne, ge, g of its eight rows. -/
theorem test_conditions :
    [(false, false, false), (false, false, true), (false, true, false), (false, true, true),
     (true, false, false), (true, false, true), (true, true, false), (true, true, true)].map (fun (z, s, o) =>
      [Cond.le, .l, .e, .ne, .ge, .g].map fun c => condHolds c ⟨z, s, o⟩) =
    [[false, false, false, true, true, true], [true, true, false, true, false, false],
     [true, true, false, true, false, false], [false, false, false, true, true, true],
     [true, false, true, false, true, false], [true, true, true, false, false, false],
     [true, true, true, false, false, false], [true, false, true, false, true, false]] := by decide
theorem test_irmovq : view State.reset [0x30, 0xf0, 0x05, 0, 0, 0, 0, 0, 0, 0] .rax = some (5, 0xa, .aok) := by decide
theorem test_rmmovq :
    viewMem (setPc (start [(.rcx, 0x1122334455667788)]) 0xc) [0x40, 0x1f, 0x00, 0x02, 0, 0, 0, 0, 0, 0] 0x200 =
      some ([0x88, 0x77, 0x66, 0x55, 0x44, 0x33, 0x22, 0x11], 0, 0x16, .aok) := by decide
/-- X8: at C - 8 the store succeeds, at C - 7 it faults and writes nothing. -/
theorem test_rmmovq_edge :
    viewMem (start [(.rax, 0xabcd)]) [0x40, 0x0f, 0xf8, 0xff, 0, 0, 0, 0, 0, 0] 0xfff8 =
      some ([0xcd, 0xab, 0, 0, 0, 0, 0, 0], 0, 0xa, .aok) ∧
    viewMem (start [(.rax, 0xabcd)]) [0x40, 0x0f, 0xf9, 0xff, 0, 0, 0, 0, 0, 0] 0xfff8 =
      some ([0, 0, 0, 0, 0, 0, 0, 0], 0, 0, .adr) := by decide
theorem test_mrmovq :
    view (placeBytes State.reset 0x200 [0x88, 0x77, 0x66, 0x55, 0x44, 0x33, 0x22, 0x11])
      [0x50, 0x2f, 0x00, 0x02, 0, 0, 0, 0, 0, 0] .rdx = some (0x1122334455667788, 0xa, .aok) := by decide
/-- A negative displacement (R120), and the base as destination (R122). -/
theorem test_mrmovq_base :
    view (placeBytes (start [(.rax, 0x108)]) 0x100 [0x07]) [0x50, 0x00, 0xf8, 0xff, 0xff, 0xff, 0xff, 0xff, 0xff, 0xff]
      .rax = some (7, 0xa, .aok) := by decide
/-- Table V2. -/
theorem test_addq :
    viewFlags (start [(.rax, 1), (.rbx, 0x7FFFFFFFFFFFFFFF)]) [0x60, 0x03] .rbx =
      some (0x8000000000000000, false, true, true) ∧
    viewFlags (start [(.rax, 1), (.rbx, 0xFFFFFFFFFFFFFFFF)]) [0x60, 0x03] .rbx = some (0, true, false, false) := by decide
theorem test_addq_sameAndNone :
    viewFlags (start [(.rax, 0x4000000000000000)]) [0x60, 0x00] .rax = some (0x8000000000000000, false, true, true) ∧
    viewFlags (start [(.rax, 7)]) [0x60, 0xf0] .rax = some (7, false, false, false) := by decide
theorem test_subq :
    viewFlags (start [(.rcx, 1), (.rax, 0x8000000000000000)]) [0x61, 0x10] .rax =
      some (0x7FFFFFFFFFFFFFFF, false, false, true) ∧
    viewFlags (start [(.rcx, 0x8000000000000000)]) [0x61, 0x10] .rax = some (0x8000000000000000, false, true, true) := by
  decide
theorem test_subq_none :
    viewFlags (start [(.rax, 7)] (zf := true)) [0x61, 0x0f] .rax = some (7, false, true, false) := by decide
theorem test_andq :
    viewFlags (start [(.rax, 0xF0F0), (.rcx, 0xFF00)] (of := true)) [0x62, 0x01] .rcx =
      some (0xF000, false, false, false) := by decide
theorem test_xorq :
    viewFlags (start [(.rax, 0xFFFFFFFFFFFFFFFF), (.rcx, 1)]) [0x63, 0x01] .rcx =
      some (0xFFFFFFFFFFFFFFFE, false, true, false) := by decide
theorem test_jmp : view State.reset [0x70, 0x20, 0, 0, 0, 0, 0, 0, 0] .rax = some (0, 0x20, .aok) ∧
    view State.reset [0x70, 0x00, 0x00, 0x01, 0, 0, 0, 0, 0] .rax = some (0, 0x10000, .aok) := by decide
theorem test_jle : view State.reset [0x71, 0x40, 0, 0, 0, 0, 0, 0, 0] .rax = some (0, 0x40, .aok) := by decide
theorem test_jl : view State.reset [0x72, 0x40, 0, 0, 0, 0, 0, 0, 0] .rax = some (0, 9, .aok) ∧
    view (start [] (sf := true)) [0x72, 0x40, 0, 0, 0, 0, 0, 0, 0] .rax = some (0, 0x40, .aok) := by decide
theorem test_je : view State.reset [0x73, 0x40, 0, 0, 0, 0, 0, 0, 0] .rax = some (0, 0x40, .aok) := by decide
theorem test_jne : view (setPc (start []) 0x1a) [0x74, 0x16, 0, 0, 0, 0, 0, 0, 0] .rax = some (0, 0x16, .aok) ∧
    view (setPc State.reset 0x1a) [0x74, 0x16, 0, 0, 0, 0, 0, 0, 0] .rax = some (0, 0x23, .aok) := by decide
theorem test_jge : view (start [] (sf := true) (of := true)) [0x75, 0x40, 0, 0, 0, 0, 0, 0, 0] .rax =
    some (0, 0x40, .aok) := by decide
theorem test_jg : view (start []) [0x76, 0x40, 0, 0, 0, 0, 0, 0, 0] .rax = some (0, 0x40, .aok) ∧
    view State.reset [0x76, 0x40, 0, 0, 0, 0, 0, 0, 0] .rax = some (0, 9, .aok) := by decide
/-- Table V7. -/
theorem test_call :
    viewMem (setPc (start [(.rsp, 0x100)]) 0x14) [0x80, 0x20, 0, 0, 0, 0, 0, 0, 0] 0xf8 =
      some ([0x1d, 0, 0, 0, 0, 0, 0, 0], 0xf8, 0x20, .aok) ∧
    viewMem State.reset [0x80, 0x40, 0, 0, 0, 0, 0, 0, 0] 0xfff8 = some ([0, 0, 0, 0, 0, 0, 0, 0], 0, 0, .adr) := by decide
theorem test_ret :
    view (setPc (placeBytes (start [(.rsp, 0xf8)]) 0xf8 [0x1d]) 0x28) [0x90] .rsp = some (0x100, 0x1d, .aok) ∧
    view (start [(.rsp, 0x10000)]) [0x90] .rsp = some (0x10000, 0, .adr) := by decide
/-- Table V8: `pushq %rsp` stores the old value; the push at reset wraps below 0. -/
theorem test_pushq :
    viewMem (setPc (start [(.rsp, 0x200)]) 0xa) [0xa0, 0x4f] 0x1f8 =
      some ([0, 0x02, 0, 0, 0, 0, 0, 0], 0x1f8, 0xc, .aok) ∧
    viewMem State.reset [0xa0, 0x0f] 0xfff8 = some ([0, 0, 0, 0, 0, 0, 0, 0], 0, 0, .adr) := by decide
/-- Table V8: `popq %rsp` leaves the popped value; `popq` of "none" only raises the stack pointer. -/
theorem test_popq :
    view (setPc (placeBytes (start [(.rsp, 0x100)]) 0x100 [0, 0x03]) 0x1e) [0xb0, 0x4f] .rsp = some (0x300, 0x20, .aok) ∧
    view (start [(.rsp, 0x100)]) [0xb0, 0xff] .rsp = some (0x108, 2, .aok) := by decide

/-! ## Memory keeps its canonical form -/

theorem test_memory_zeroRemoves : (Memory.set [(3, 7), (5, 9)] 3 0) = [(5, 9)] ∧
    Memory.set (Memory.set [] 5 9) 3 7 = [(3, 7), (5, 9)] ∧ Memory.set [(3, 7)] 3 8 = [(3, 8)] := by decide
theorem test_memory_word : Memory.setWord [] 0 0x0100 = [(1, 1)] ∧ Memory.getWord [(1, 1)] 0 = 0x0100 := by decide

/-! ## Witnesses: for each statement with hypotheses, states and operands that meet them, at the boundaries of its clauses -/

/-- A machine whose memory from `pc` on holds the given bytes. -/
def fetching (s : State) (bs : List Byte) : State := placeProgram s bs

/-- The first bytes either side of the invalid range, and the third clause's state. -/
theorem wit_InvalidClassRaisesIns :
    12 ≤ (hiNibble 0xC0).toNat ∧ ¬ 12 ≤ (hiNibble 0xBF).toNat ∧
    (let s := fetching (setPc State.reset 0xffff) [0xC0]
     s.status = .aok ∧ s.pc.toNat < s.cfg.capacity ∧ 12 ≤ (hiNibble (s.mem.get s.pc.toNat)).toNat) := by decide

/-- The six bounds of the reserved bytes and their neighbours, and a state for each policy. -/
theorem wit_ReservedFunctionFollowsThePolicy :
    ([0x27, 0x2F, 0x64, 0x6F, 0x77, 0x7F].all fun b : Byte => reservedFn (hiNibble b) (loNibble b)) = true ∧
    ([0x26, 0x30, 0x63, 0x70, 0x76, 0x80].all fun b : Byte => !reservedFn (hiNibble b) (loNibble b)) = true ∧
    (let s := fetching (machine 1) [0x6F]
     s.status = .aok ∧ s.pc.toNat < s.cfg.capacity ∧ s.cfg.reservedPolicy = .refuse ∧
      reservedFn (hiNibble (s.mem.get s.pc.toNat)) (loNibble (s.mem.get s.pc.toNat)) = true) ∧
    (let s := fetching (machine 1 .insFault) [0x27]
     s.status = .aok ∧ s.pc.toNat < s.cfg.capacity ∧ s.cfg.reservedPolicy = .insFault ∧
      reservedFn (hiNibble (s.mem.get s.pc.toNat)) (loNibble (s.mem.get s.pc.toNat)) = true) := by decide

theorem wit_FieldsAndBytesAgree :
    decodeFields [0xb7, 0x4e, 0x01] = .ok ⟨11, 7, 4, 14, 0⟩ [0x01] ∧ Fields.wellFormed ⟨11, 7, 4, 14, 0⟩ = true ∧
    encodeFields ⟨11, 7, 4, 14, 0⟩ = [0xb7, 0x4e] := by decide

theorem wit_IgnoredNibblesDoNotMatter :
    ([0, 1, 3, 4, 5, 8, 9, 10, 11].all fun n : Nibble => decide (n.toNat ∉ [2, 6, 7])) = true ∧
    (10 : Nibble).toNat ∈ [10, 11] ∧ (11 : Nibble).toNat ∈ [10, 11] ∧
    decode (byteOfNibbles 10 3 :: [byteOfNibbles 7 2]) = .ok (.pushq .rdi) [] := by decide

theorem wit_DecodedLengthIsTheFormats :
    decode [0x90] = .ok .ret [] ∧ decode [0x20, 0x01, 0x00] = .ok (.rrmovq .rax .rcx) [0x00] ∧
    decode [0x70, 0, 0, 0, 0, 0, 0, 0, 0] = .ok (.jmp 0) [] ∧
    decode [0x30, 0xf0, 0, 0, 0, 0, 0, 0, 0, 0] = .ok (.irmovq 0 .rax) [] := by decide

/-- An instruction that ends at the last byte of memory; the tenth byte is fetched and the eleventh is not. -/
theorem wit_StepRunsTheDecodedInstruction :
    (let s := fetching (setPc State.reset 0xfff6) [0x30, 0xf0, 0x77, 0, 0, 0, 0, 0, 0, 0x80]
     s.status = .aok ∧ decode (fetchBytes s) = .ok (.irmovq 0x8000000000000077 .rax) [] ∧
      (fetchBytes s)[9]? = some 0x80 ∧ (fetchBytes s)[10]? = none) ∧
    (let s := fetching (setPc State.reset 0xfff7) [0x10]
     s.status = .aok ∧ decode (fetchBytes s) = .ok .nop [0, 0, 0, 0, 0, 0, 0, 0] ∧ (fetchBytes s)[9]? = none) := by decide

theorem wit_StepKeepsTheInvariant :
    let s := fetching (start [(.rsp, 0x10000), (.rax, 1)]) [0xa0, 0x0f]
    s.Inv ∧ (next? (step s)).map (fun t => t.mem.getLast?) = some (some (0xfff8, 1)) ∧
      (next? (step s)).map (fun t => t.cfg) = some s.cfg := by decide

theorem wit_StepKeepsTheParameters : step (fetching State.reset [0x10]) = .next (setPc (fetching State.reset [0x10]) 1) := by
  rfl

theorem wit_TerminalStatusStopsEverything :
    (raise State.reset .hlt).status ≠ .aok ∧ (raise State.reset .adr).status ≠ .aok ∧
    (raise State.reset .ins).status ≠ .aok ∧ State.reset.status = .aok ∧
    (next? (step State.reset)).map (fun t => t.status) = some .hlt := by decide

/-- The status is raised, and is not raised, from a running state. -/
theorem wit_HltIsRaisedByClassZeroOnly :
    (after State.reset [0x0f]).map (fun t => t.status) = some .hlt ∧
    (after State.reset [0x10]).map (fun t => t.status) = some .aok ∧ (placeProgram State.reset [0x0f]).status = .aok := by
  decide

theorem wit_InsIsRaisedByTheOpcodeByteOnly :
    (after State.reset [0xC0]).map (fun t => t.status) = some .ins ∧
    (after (machine 8 .insFault) [0x77]).map (fun t => t.status) = some .ins ∧
    (after (machine 8 .insFault) [0x76]).map (fun t => t.status) = some .adr ∧
    (placeProgram State.reset [0xC0]).status = .aok := by decide

/-- The fetch's rows at their bounds: the opcode byte at C, a register byte at C, an immediate one byte too long; each once
more one byte lower. -/
theorem wit_AdrIsRaisedByOutsideAccessOnly_fetch :
    fetchOutside (setPc State.reset 0x10000) ∧ ¬ fetchOutside (setPc State.reset 0xffff) ∧
    fetchOutside (fetching (setPc State.reset 0xffff) [0x20]) ∧
    ¬ fetchOutside (fetching (setPc State.reset 0xfffe) [0x20]) ∧
    fetchOutside (fetching (setPc State.reset 0xfff7) [0x30]) ∧
    ¬ fetchOutside (fetching (setPc State.reset 0xfff6) [0x30]) ∧
    (after (setPc State.reset 0xffff) [0x20]).map (fun t => t.status) = some .adr ∧
    (after (setPc State.reset 0xfff7) [0x30]).map (fun t => t.status) = some .adr := by
  unfold fetchOutside; decide

/-- At C - 1 neither a reserved sub-function nor an undefined class reads a further byte. -/
theorem wit_AdrIsRaisedByOutsideAccessOnly_excluded :
    ¬ fetchOutside (fetching (setPc (machine 65536 .insFault) 0xffff) [0x27]) ∧
    (after (setPc (machine 65536 .insFault) 0xffff) [0x27]).map (fun t => t.status) = some .ins ∧
    ¬ fetchOutside (fetching (setPc State.reset 0xffff) [0xC0]) ∧
    (after (setPc State.reset 0xffff) [0xC0]).map (fun t => t.status) = some .ins := by
  unfold fetchOutside; decide

/-- The data access's rows at their bounds: C - 7 is outside and C - 8 is not. -/
theorem wit_AdrIsRaisedByOutsideAccessOnly_data :
    dataOutside (.mrmovq 0xfff9 .none .rax) State.reset ∧ ¬ dataOutside (.mrmovq 0xfff8 .none .rax) State.reset ∧
    dataOutside (.rmmovq .rax 0xfff9 .none) State.reset ∧ ¬ dataOutside (.rmmovq .rax 0xfff8 .none) State.reset ∧
    decode (fetchBytes (fetching State.reset [0x50, 0x0f, 0xf9, 0xff, 0, 0, 0, 0, 0, 0])) =
      .ok (.mrmovq 0xfff9 .none .rax) [] := by
  refine ⟨.inl ⟨_, rfl, by decide⟩, ?_, .inr ⟨_, rfl, by decide⟩, ?_, by decide⟩ <;>
    (rintro (⟨a, h, e⟩ | ⟨a, h, e⟩) <;> cases h; revert e; decide)

theorem wit_OnlyReservedFunctionsHaveNoOutcome :
    after (machine 65536) [0x64] = none ∧ (placeProgram (machine 65536) [0x64]).status = .aok ∧
    (after (machine 65536 .insFault) [0x64]).isSome = true := by decide

theorem wit_RunEndIsUnique : RunEndsIn State.reset (raise State.reset .hlt) := ⟨1, rfl, by decide⟩

/-- The unconditional jump at the top of memory, and a conditional one with its condition true. -/
theorem wit_JumpToSelfRunsForever :
    (let s := fetching (setPc State.reset 0xfff7) [0x70, 0xf7, 0xff, 0, 0, 0, 0, 0, 0]
     s.status = .aok ∧ condHolds .always s.flags = true ∧
      decode (fetchBytes s) = .ok (Instr.ofJump .always s.pc) []) ∧
    (let s := fetching State.reset [0x73, 0, 0, 0, 0, 0, 0, 0, 0]
     s.status = .aok ∧ condHolds .e s.flags = true ∧ decode (fetchBytes s) = .ok (Instr.ofJump .e s.pc) [0]) := by decide

theorem wit_ResetMeetsTheInvariant : Config.wf ⟨1, .insFault⟩ ∧ Config.wf ⟨2 ^ 63, .refuse⟩ := by decide

/-- The two bounds of the capacity, and an image with a byte at C, dropped, and one written twice. -/
theorem wit_LaunchStateIsResetAndImage :
    Config.wf ⟨1, .refuse⟩ ∧ Config.wf ⟨2 ^ 63, .insFault⟩ ∧ ¬ Config.wf ⟨0, .refuse⟩ ∧ ¬ Config.wf ⟨2 ^ 63 + 1, .refuse⟩ ∧
    (launch ⟨8, .refuse⟩ [(7, 1), (8, 2), (7, 3)]).mem = [(7, 3)] := by decide

/-- One byte at C - 1 and at C; eight bytes at C - 8 and at C - 7. -/
theorem wit_MemReadIsBoundedAndLittleEndian :
    memRead1 State.reset 0xffff = some 0 ∧ memRead1 State.reset 0x10000 = none ∧
    (setPc State.reset 0x10000).status = .aok ∧ memRead1 (setPc State.reset 0x10000) 0x10000 = none ∧
    (0xfff8 : Word).toNat + 8 ≤ State.reset.cfg.capacity ∧ ¬ (0xfff9 : Word).toNat + 8 ≤ State.reset.cfg.capacity ∧
    ¬ (0xFFFFFFFFFFFFFFFC : Word).toNat + 8 ≤ State.reset.cfg.capacity := by decide

theorem wit_MemWriteIsBoundedAndLittleEndian :
    (0xfff8 : Word).toNat + 8 ≤ State.reset.cfg.capacity ∧ ¬ (0xfff9 : Word).toNat + 8 ≤ State.reset.cfg.capacity ∧
    storeAddress? (.rmmovq .rax 0xfff8 .none) State.reset = some 0xfff8 ∧
    (next? (exec (.rmmovq .rax 0xfff8 .none) State.reset)).isSome = true := by decide

theorem wit_EdgeOfMemory :
    (effectiveAddress State.reset 0xfff8 .none).toNat + 8 = State.reset.cfg.capacity ∧
    (effectiveAddress State.reset 0xfff9 .none).toNat + 7 = State.reset.cfg.capacity := by decide

theorem wit_CanonicalMemoryIsItsBytes :
    Memory.wf [(3, 7), (5, 9)] ∧ ∀ a, Memory.get [(3, 7), (5, 9)] a = Memory.get (Memory.set [(5, 9)] 3 7) a :=
  ⟨by decide, fun _ => rfl⟩

theorem wit_StoreIsSeenByTheNextFetch :
    let s := setPc (start [(.rax, 0x0010101010101010)]) 0xa
    effectiveAddress s 0x14 .none = s.pc + 10 ∧ (effectiveAddress s 0x14 .none).toNat + 8 ≤ s.cfg.capacity ∧
      (next? (exec (.rmmovq .rax 0x14 .none) s)).map (fun t => fetchBytes t) =
        some [0x10, 0x10, 0x10, 0x10, 0x10, 0x10, 0x10, 0x00, 0, 0] := by decide

theorem wit_OnlyDestinationRegistersChange :
    writtenRegs (.popq .rax) = [.rsp, .rax] ∧ RegId.rbx ∉ writtenRegs (.popq .rax) ∧
    (next? (exec (.popq .rax) State.reset)).isSome = true := by decide

/-- A move is not one of the four arithmetic instructions, and has a next state; so has an addition. -/
theorem wit_FlagsAreWrittenByArithmeticOnly :
    (∀ fn rA rB, Instr.irmovq 0 .rax ≠ Instr.ofAlu fn rA rB) ∧
    (next? (exec (.irmovq 0 .rax) State.reset)).isSome = true ∧
    (next? (exec (Instr.ofAlu .add .rax .rax) State.reset)).isSome = true :=
  ⟨by (rintro ⟨⟩ _ _ h <;> cases h), by decide, by decide⟩

/-- The unconditional move is in the second clause; an addition with a next state is in the first. -/
theorem wit_FlagsAreReadByConditionalsOnly :
    (∀ fn rA rB, Instr.rrmovq .rax .rcx ≠ Instr.ofAlu fn rA rB) ∧
    (∀ c rA rB, c ≠ .always → Instr.rrmovq .rax .rcx ≠ Instr.ofMove c rA rB) ∧
    (∀ c dest, c ≠ .always → Instr.rrmovq .rax .rcx ≠ Instr.ofJump c dest) ∧
    (next? (exec (.rrmovq .rax .rcx) State.reset)).isSome = true ∧
    (next? (exec (Instr.ofAlu .add .rax .rcx) State.reset)).isSome = true := by
  refine ⟨?_, ?_, ?_, by decide, by decide⟩
  · rintro ⟨⟩ _ _ h <;> cases h
  · rintro ⟨⟩ _ _ hc h <;> first | exact hc rfl | cases h
  · rintro ⟨⟩ _ _ h <;> cases h

theorem wit_PcUpdateByInstruction :
    (∃ t, exec (.mrmovq 0xfff8 .none .rax) State.reset = .next t ∧ t.pc = 10) ∧
    ¬ dataOutside (.mrmovq 0xfff8 .none .rax) State.reset ∧ Instr.mrmovq 0xfff8 .none .rax ≠ .halt ∧
    (∃ t, exec (.mrmovq 0xfff9 .none .rax) State.reset = .next t ∧ t.pc = 0) ∧
    dataOutside (.mrmovq 0xfff9 .none .rax) State.reset :=
  ⟨⟨_, rfl, by decide⟩, wit_AdrIsRaisedByOutsideAccessOnly_data.2.1, by decide, ⟨_, rfl, by decide⟩,
    wit_AdrIsRaisedByOutsideAccessOnly_data.1⟩

theorem wit_SequentialAddressNeverWraps :
    let s := fetching (setPc (machine (2 ^ 63)) 0x7FFFFFFFFFFFFFF7) [0x70]
    s.cfg.wf ∧ decode (fetchBytes s) = .ok (.jmp 0) [] ∧ s.pc.toNat + 9 = s.cfg.capacity := by decide

/-- Addresses whose last byte is the last byte of memory. -/
theorem wit_RmmovqEffect : (effectiveAddress (start [(.rbx, 0x10000)]) 0xFFFFFFFFFFFFFFF8 .rbx).toNat + 8 ≤
    (start []).cfg.capacity := by decide
theorem wit_MrmovqEffect : (effectiveAddress (start [(.rbx, 0xfff0)]) 8 .rbx).toNat + 8 ≤ (start []).cfg.capacity := by
  decide
theorem wit_CallEffect : (pushAddress (start [(.rsp, 0x10000)])).toNat + 8 ≤ (start []).cfg.capacity := by decide
theorem wit_PushqEffect : (pushAddress (start [(.rsp, 8)])).toNat + 8 ≤ (start []).cfg.capacity := by decide
theorem wit_RetEffect : (readReg (start [(.rsp, 0xfff8)]) (.slot 4)).toNat + 8 ≤ (start []).cfg.capacity := by decide
theorem wit_PopqEffect : (readReg State.reset (.slot 4)).toNat + 8 ≤ State.reset.cfg.capacity := by decide

/-- One byte beyond, for each of the three address forms, and the wrapped push. -/
theorem wit_OutsideDataAccessRaisesAdr :
    State.reset.cfg.capacity < (effectiveAddress State.reset 0xfff9 .none).toNat + 8 ∧
    (start []).cfg.capacity < (pushAddress (start [(.rsp, 0x10001)])).toNat + 8 ∧
    State.reset.cfg.capacity < (pushAddress State.reset).toNat + 8 ∧
    (start []).cfg.capacity < (readReg (start [(.rsp, 0xfff9)]) (.slot 4)).toNat + 8 := by decide

theorem wit_PushBelowZeroRaisesAdr :
    State.reset.cfg.wf ∧ (readReg State.reset (.slot 4)).toNat < 8 ∧ (start []).cfg.wf ∧
    (readReg (start [(.rsp, 7)]) (.slot 4)).toNat < 8 ∧ ¬ (readReg (start [(.rsp, 8)]) (.slot 4)).toNat < 8 := by decide

/-- The hypothesis is on the address alone: the popped register may be the stack pointer. -/
theorem wit_PushThenPopCopies : (pushAddress (start [(.rsp, 8)])).toNat + 8 ≤ (start []).cfg.capacity := wit_PushqEffect
theorem wit_CallThenRetResumes : (pushAddress (start [(.rsp, 0x10000)])).toNat + 8 ≤ (start []).cfg.capacity :=
  wit_CallEffect
theorem wit_MoveStoreLoadRoundTrip :
    RegId.rcx ≠ .none ∧ RegId.rdx ≠ .none ∧ (0xfff8 : Word).toNat + 8 ≤ State.reset.cfg.capacity := by decide

/-- Fields with an ignored nibble set stand for an instruction, and fields of an undefined class for none. -/
theorem wit_ExecIsControlTableCycle :
    Fields.instr? ⟨11, 7, 4, 14, 0⟩ = some (.popq .rsp) ∧ Fields.instr? ⟨12, 0, 15, 15, 0⟩ = none := by decide
theorem wit_StepIsControlTableCycle : State.reset.status = .aok := by decide

end Sys2Proof.Tests
end

/-!
PROOFS. The statements about the state: reset (10_state.md section 9), the terminal statuses (section 5) and the writers of
the condition codes (section 4).
-/

namespace Sys2Proof.Machine

/-! ## Reset -/

/-- After reset every register reads 0. -/
@[simp] theorem readReg_resetWith (cfg : Config) (r : RegId) : readReg (State.resetWith cfg) r = 0 := by
  cases r with
  | none => rfl
  | slot i => simp [readReg, State.resetWith]

/-- Settles O9: the registers by `readReg_resetWith`, and every other field as `State.resetWith` writes it. -/
theorem resetLeavesTheSpecifiedState : Obligations.ResetLeavesTheSpecifiedState :=
  fun cfg => ⟨readReg_resetWith cfg, rfl, rfl, rfl, rfl, rfl, fun _ => rfl⟩

/-! ## Terminal statuses -/

/-- The first step of a machine's run, where it has a next state. -/
theorem coreRun_succ_of_step {M : Host.Core} {s t : M.State} (h : M.step s = .next t) (n : Nat) :
    M.run (n + 1) s = M.run n t := by
  simp only [Host.Core.run, h]

/-- A run's first cycle, where it has a next state. -/
theorem runFor_succ_of_step {s t : State} (h : step s = .next t) (n : Nat) : runFor (n + 1) s = runFor n t :=
  coreRun_succ_of_step (M := Sys2Proof.core) h n

/-- A run of any length that starts at a terminal status answers the state it starts from. -/
theorem runFor_of_terminal {s : State} (hs : s.status ≠ .aok) (n : Nat) : runFor n s = .next s := by
  induction n with
  | zero => rfl
  | succ n ih => rw [runFor_succ_of_step (step_of_terminal hs), ih]

/-- An instruction that takes a running state to a terminal status did so by `raise`, which writes the status only. -/
theorem exec_eq_raise_of_terminal {i : Instr} {s t : State} (hs : s.status = .aok) (h : exec i s = .next t)
    (ht : t.status ≠ .aok) : t = raise s t.status := by
  obtain ⟨-, rfl⟩ | ⟨-, rfl⟩ | ⟨hst, -⟩ := exec_cases h
  · rfl
  · rfl
  · exact absurd (hst.trans hs) ht

/-- A rejection that answers a state did so by `raise`. -/
theorem rejectCycle_eq_raise {r : Reject} {s t : State} (h : rejectCycle r s = .next t) : t = raise s t.status := by
  obtain ⟨rfl, -⟩ | ⟨rfl, -⟩ := rejectCycle_cases h <;> rfl

/-- A cycle that takes a running state to a terminal status did so by `raise`. -/
theorem step_eq_raise_of_terminal {s t : State} (hs : s.status = .aok) (h : step s = .next t)
    (ht : t.status ≠ .aok) : t = raise s t.status := by
  obtain ⟨hn, -⟩ | ⟨-, i, rest, -, he⟩ | ⟨-, r, -, hr⟩ := step_cases h
  · exact absurd hs hn
  · exact exec_eq_raise_of_terminal hs he ht
  · exact rejectCycle_eq_raise hr

/-- Settles O13: a terminal state is its own next state, by induction on the number of cycles; and a cycle sets a terminal
status by `raise` only. -/
theorem terminalStatusStopsEverything : Obligations.TerminalStatusStopsEverything :=
  ⟨fun _ hs n => runFor_of_terminal hs n, fun _ _ hs h ht => step_eq_raise_of_terminal hs h ht⟩

/-! ## The writers of the condition codes -/

@[simp] theorem moveIf_flags (c : Cond) (rA rB : RegId) (s : State) : (moveIf c rA rB s).flags = s.flags := by
  simp [moveIf]

@[simp] theorem jumpIf_flags (c : Cond) (dest : Word) (s : State) : (jumpIf c dest s).flags = s.flags := rfl

@[simp] theorem aluOp_flags (fn : AluFn) (rA rB : RegId) (s : State) :
    (aluOp fn rA rB s).flags = aluFlags fn (readReg s rA) (readReg s rB) := by
  simp [aluOp]

/-- A load leaves the condition codes as they were when what follows it does. -/
theorem withLoad_flags {s : State} {a : Word} {k : Word → State} (hk : ∀ v, (k v).flags = s.flags) :
    (withLoad s a k).flags = s.flags := by
  rw [withLoad_eq]
  split
  · exact hk _
  · rfl

/-- A store leaves the condition codes as they were when what follows it does. -/
theorem withStore_flags {s : State} {a v : Word} {k : State → State} (hk : ∀ t, (k t).flags = t.flags) :
    (withStore s a v k).flags = s.flags := by
  rw [withStore_eq]
  split
  · exact hk _
  · rfl

/-- The meaning of the class-6 instruction of an ALU function. -/
@[simp] theorem exec_ofAlu (fn : AluFn) (rA rB : RegId) (s : State) :
    exec (Instr.ofAlu fn rA rB) s = .next (aluOp fn rA rB s) := by
  cases fn <;> rfl

/-- An instruction outside class 6 leaves the condition codes as they were. -/
theorem exec_flags_of_ne_ofAlu {i : Instr} {s t : State} (hi : ∀ fn rA rB, i ≠ Instr.ofAlu fn rA rB)
    (h : exec i s = .next t) : t.flags = s.flags := by
  cases i
  case addq rA rB => exact absurd rfl (hi .add rA rB)
  case subq rA rB => exact absurd rfl (hi .sub rA rB)
  case andq rA rB => exact absurd rfl (hi .and rA rB)
  case xorq rA rB => exact absurd rfl (hi .xor rA rB)
  case rmmovq | call | pushq => cases h; exact withStore_flags fun _ => by simp
  case mrmovq | ret | popq => cases h; exact withLoad_flags fun _ => by simp
  -- What is left accesses no memory: halt, nop, the moves and the jumps.
  all_goals cases h; simp

/-- Settles O27: the instructions outside class 6 by the cases of `exec_flags_of_ne_ofAlu`, those of class 6 by the flags
that `aluOp` leaves. -/
theorem flagsAreWrittenByArithmeticOnly : Obligations.FlagsAreWrittenByArithmeticOnly := by
  refine ⟨fun _ _ _ hi h => exec_flags_of_ne_ofAlu hi h, fun fn rA rB s t h => ?_⟩
  rw [exec_ofAlu] at h
  cases h
  exact aluOp_flags fn rA rB s

end Sys2Proof.Machine

/-!
PROOFS. The statements about the encoding: the invalid classes (30_encoding.md rule R60).
-/

namespace Sys2Proof

/-! ## Invalid classes -/

/-- The field decoder rejects a class of 12 to 15 at the opcode byte, before it reads another byte, and rejects no other
class as invalid. -/
theorem decodeFields_eq_invalidClass {b : Byte} {bs : List Byte} {n : Nibble} :
    decodeFields (b :: bs) = .reject (.invalidClass n) ↔ n = hiNibble b ∧ 12 ≤ (hiNibble b).toNat := by
  simp only [decodeFields]
  split
  · next h =>
    simp only [Decoded.reject.injEq, Reject.invalidClass.injEq]
    exact ⟨fun e => ⟨e.symm, h⟩, fun e => e.1.symm⟩
  · next h =>
    -- The tests after the class range answer no invalid class.
    refine ⟨fun e => ?_, fun e => absurd e.2 h⟩
    split at e
    · cases e
    · split at e
      · cases e
      · split at e <;> cases e

/-- An invalid class is found by the field decoder: the reading of the fields as an instruction adds none. -/
theorem decode_eq_invalidClass {bs : List Byte} {n : Nibble} :
    decode bs = .reject (.invalidClass n) ↔ decodeFields bs = .reject (.invalidClass n) := by
  unfold decode
  split
  · next r hr => simp [hr]
  · next f rest hf =>
    rw [hf]
    split <;> simp

/-- The byte range R60 names: the class is the byte divided by 16. -/
theorem twelve_le_hiNibble_iff (b : Byte) : 12 ≤ (hiNibble b).toNat ↔ 0xC0 ≤ b.toNat := by
  have := b.isLt
  rw [toNat_hiNibble]
  omega

namespace Machine

/-- Where the opcode byte lies inside memory, it is the first byte fetched. -/
theorem fetchBytes_of_lt {s : State} (h : s.pc.toNat < s.cfg.capacity) :
    fetchBytes s = s.mem.get s.pc.toNat :: bytesAt s (s.pc.toNat + 1) 9 := by
  simp [fetchBytes, bytesAt, h]

/-- A running machine raises `INS` at an opcode byte of an invalid class, whatever follows it in memory. -/
theorem step_of_invalidClass {s : State} (hs : s.status = .aok) (hpc : s.pc.toNat < s.cfg.capacity)
    (hb : 12 ≤ (hiNibble (s.mem.get s.pc.toNat)).toNat) : step s = .next (raise s .ins) := by
  have hd : decode (fetchBytes s) = .reject (.invalidClass (hiNibble (s.mem.get s.pc.toNat))) := by
    rw [fetchBytes_of_lt hpc, decode_eq_invalidClass, decodeFields_eq_invalidClass]
    exact ⟨rfl, hb⟩
  exact step_of_reject hs hd

/-- Settles O4: the decoder's invalid classes by `decodeFields_eq_invalidClass`, the byte range by arithmetic on the high
nibble, and the step by `step_of_invalidClass`, where `raise` writes the status only. -/
theorem invalidClassRaisesIns : Obligations.InvalidClassRaisesIns := by
  refine ⟨fun b bs => ?_, twelve_le_hiNibble_iff, fun _ hs hpc hb => step_of_invalidClass hs hpc hb⟩
  simp only [decode_eq_invalidClass, decodeFields_eq_invalidClass, exists_eq_left]

end Machine

end Sys2Proof

/-!
PROOFS. The statements about the cycle: the `pc` an instruction leaves (40_cycle.md rule R80).
-/

namespace Sys2Proof.Machine

/-! ## The new pc -/

/-- The eight bytes a load reads lie inside memory when no data access of the instruction lies outside. -/
theorem toNat_add_le_of_loadAddress {i : Instr} {s : State} {a : Word} (hd : ¬ dataOutside i s)
    (ha : loadAddress? i s = some a) : a.toNat + 8 ≤ s.cfg.capacity :=
  Nat.not_lt.mp fun hb => hd (.inl ⟨a, ha, hb⟩)

/-- The eight bytes a store writes lie inside memory when no data access of the instruction lies outside. -/
theorem toNat_add_le_of_storeAddress {i : Instr} {s : State} {a : Word} (hd : ¬ dataOutside i s)
    (ha : storeAddress? i s = some a) : a.toNat + 8 ≤ s.cfg.capacity :=
  Nat.not_lt.mp fun hb => hd (.inr ⟨a, ha, hb⟩)

/-- A jump leaves the `pc` that `newPc` gives the class-7 instruction of its condition, whose condition `newPc` writes out. -/
theorem jumpIf_pc (c : Cond) (dest : Word) (s : State) : (jumpIf c dest s).pc = newPc (Instr.ofJump c dest) s := by
  cases c <;> rfl

/-- An instruction that does not halt and whose data access lies inside memory leaves the `pc` that `newPc` gives. -/
theorem exec_pc_of_inside {i : Instr} {s t : State} (hi : i ≠ .halt) (hd : ¬ dataOutside i s)
    (h : exec i s = .next t) : t.pc = newPc i s := by
  cases i
  case halt => exact absurd rfl hi
  case jmp | jle | jl | je | jne | jge | jg => cases h; exact jumpIf_pc _ _ s
  case rmmovq | call | pushq =>
    cases h
    rw [withStore_eq, if_pos (toNat_add_le_of_storeAddress hd rfl)]
    exact setPc_pc _ _
  case mrmovq | ret | popq =>
    cases h
    rw [withLoad_eq, if_pos (toNat_add_le_of_loadAddress hd rfl)]
    exact setPc_pc _ _
  -- What is left, nop, the moves and the arithmetic, sets `pc` to the sequential address last.
  all_goals cases h; exact setPc_pc _ _

/-- A halt, and an instruction whose data access lies outside memory, leave `pc` as it was: each is a `raise`. -/
theorem exec_pc_of_halt_or_outside {i : Instr} {s t : State} (hi : i = .halt ∨ dataOutside i s)
    (h : exec i s = .next t) : t.pc = s.pc := by
  obtain rfl | hd := hi
  · cases h; exact raise_pc s .hlt
  · rw [exec_of_dataOutside hd] at h
    cases h
    exact raise_pc s .adr

/-- Settles O30: an instruction that completes by the cases of `exec_pc_of_inside`, a halt and a data access outside memory
by what `raise` leaves. -/
theorem pcUpdateByInstruction : Obligations.PcUpdateByInstruction :=
  fun _ _ _ h => ⟨fun hi hd => exec_pc_of_inside hi hd h, fun hi => exec_pc_of_halt_or_outside hi h⟩

end Sys2Proof.Machine

/-!
PROOFS. The statements about the exceptional stops: what raises `HLT` (60_exceptions.md rule R171).
-/

namespace Sys2Proof

/-! ## The decoder's halts -/

theorem Instr.ofMove_ne_halt (c : Cond) (rA rB : RegId) : Instr.ofMove c rA rB ≠ .halt := by
  cases c <;> exact nofun

theorem Instr.ofAlu_ne_halt (fn : AluFn) (rA rB : RegId) : Instr.ofAlu fn rA rB ≠ .halt := by
  cases fn <;> exact nofun

theorem Instr.ofJump_ne_halt (c : Cond) (dest : Word) : Instr.ofJump c dest ≠ .halt := by
  cases c <;> exact nofun

/-- The fields that stand for `halt` are those of class 0, whatever the sub-function (R59). -/
theorem Fields.instr?_eq_halt_iff {f : Fields} : f.instr? = some .halt ↔ f.icode.toNat = 0 := by
  unfold Fields.instr?
  -- One goal per class; the classes whose sub-function selects the instruction select no `halt`.
  split <;> simp [*, Instr.ofMove_ne_halt, Instr.ofAlu_ne_halt, Instr.ofJump_ne_halt]
  -- What stays open is the last branch, of classes 12 to 15.
  assumption

/-- The class of decoded fields is the high nibble of the first byte (R51). -/
theorem hiNibble_of_decodeFields {b : Byte} {bs rest : List Byte} {f : Fields}
    (h : decodeFields (b :: bs) = .ok f rest) : hiNibble b = f.icode := by
  obtain ⟨-, -, -, -, hb⟩ := decodeFields_eq_ok.mp h
  rw [encodeFields, List.cons_append, List.cons.injEq] at hb
  rw [hb.1, hiNibble_byteOfNibbles]

/-- An opcode byte of class 0 is decoded as `halt`, and no other byte is read. -/
theorem decode_of_class_zero {b : Byte} (bs : List Byte) (hb : (hiNibble b).toNat = 0) :
    decode (b :: bs) = .ok .halt bs := by
  refine decode_eq_ok.mpr ⟨⟨hiNibble b, loNibble b, 15, 15, 0⟩, decodeFields_eq_ok.mpr ?_,
    Fields.instr?_eq_halt_iff.mpr hb⟩
  refine ⟨by simp [hb], by simp [hb, reservedFn], fun _ => ⟨rfl, rfl⟩, fun _ => rfl, ?_⟩
  simp [encodeFields, needRegs, needImm, hb]

/-- The bytes decoded as `halt` are those whose first byte is of class 0. -/
theorem decode_cons_eq_halt_iff {b : Byte} {bs : List Byte} :
    (∃ rest, decode (b :: bs) = .ok .halt rest) ↔ (hiNibble b).toNat = 0 := by
  refine ⟨fun ⟨rest, h⟩ => ?_, fun hb => ⟨bs, decode_of_class_zero bs hb⟩⟩
  obtain ⟨f, hf, hi⟩ := decode_eq_ok.mp h
  rw [hiNibble_of_decodeFields hf]
  exact Fields.instr?_eq_halt_iff.mp hi

namespace Machine

/-- Where `pc` lies outside memory no byte is fetched. -/
theorem fetchBytes_of_le {s : State} (h : s.cfg.capacity ≤ s.pc.toNat) : fetchBytes s = [] := by
  simp [fetchBytes, bytesAt, h]

/-- The fetched bytes are decoded as `halt` exactly where the opcode byte lies inside memory and is of class 0. -/
theorem decode_fetchBytes_eq_halt_iff {s : State} :
    (∃ rest, decode (fetchBytes s) = .ok .halt rest) ↔
      s.pc.toNat < s.cfg.capacity ∧ (hiNibble (s.mem.get s.pc.toNat)).toNat = 0 := by
  by_cases hpc : s.pc.toNat < s.cfg.capacity
  · rw [fetchBytes_of_lt hpc, decode_cons_eq_halt_iff]
    exact (and_iff_right hpc).symm
  · rw [fetchBytes_of_le (Nat.le_of_not_lt hpc)]
    simp [decode, decodeFields, hpc]

/-! ## What raises `HLT` -/

/-- The only instruction that takes a running machine to `HLT` is `halt`. -/
theorem exec_status_eq_hlt_iff {i : Instr} {s t : State} (hs : s.status = .aok) (h : exec i s = .next t) :
    t.status = .hlt ↔ i = .halt := by
  constructor
  · intro ht
    obtain ⟨hi, -⟩ | ⟨-, rfl⟩ | ⟨hst, -⟩ := exec_cases h
    · exact hi
    · cases ht
    · rw [hst, hs] at ht
      cases ht
  · rintro rfl
    cases h
    exact raise_status s .hlt

/-- A rejection raises `ADR` or `INS`, never `HLT`. -/
theorem rejectCycle_status_ne_hlt {r : Reject} {s t : State} (h : rejectCycle r s = .next t) : t.status ≠ .hlt := by
  obtain ⟨rfl, -⟩ | ⟨rfl, -⟩ := rejectCycle_cases h <;> simp

/-- A running machine's step raises `HLT` exactly where the fetched bytes are decoded as `halt`. -/
theorem step_status_eq_hlt_iff {s t : State} (hs : s.status = .aok) (h : step s = .next t) :
    t.status = .hlt ↔ ∃ rest, decode (fetchBytes s) = .ok .halt rest := by
  obtain ⟨hn, -⟩ | ⟨-, i, rest, hd, he⟩ | ⟨-, r, hd, hr⟩ := step_cases h
  · exact absurd hs hn
  · rw [exec_status_eq_hlt_iff hs he, hd]
    simp
  · rw [hd]
    simp [rejectCycle_status_ne_hlt hr]

/-- Settles O14: a step raises `HLT` where the decoder reads `halt` (`step_status_eq_hlt_iff`), and it reads `halt` where the
opcode byte is of class 0 (`decode_fetchBytes_eq_halt_iff`). -/
theorem hltIsRaisedByClassZeroOnly : Obligations.HltIsRaisedByClassZeroOnly :=
  fun _ _ hs h => (step_status_eq_hlt_iff hs h).trans decode_fetchBytes_eq_halt_iff

end Machine

end Sys2Proof

/-!
PROOFS. The statements about the encoding: the decoder of fields and the bytes, the canonical bytes, the ignored nibbles and
the lengths (30_encoding.md sections 1 to 5).
-/

namespace Sys2Proof

/-! ## The well-formedness checks are the decoder's tests -/

/-- The sub-functions of classes 2 and 7 that select no condition (R58). -/
theorem Cond.ofFn_eq_none_iff : ∀ n : Nibble, Cond.ofFn n = none ↔ 7 ≤ n.toNat := by decide

/-- The sub-functions of class 6 that select no ALU function (R57). -/
theorem AluFn.ofFn_eq_none_iff : ∀ n : Nibble, AluFn.ofFn n = none ↔ 4 ≤ n.toNat := by decide

/-- The reserved sub-functions, by number (R61). -/
theorem reservedFn_iff {icode ifun : Nibble} :
    reservedFn icode ifun = true ↔
      (icode.toNat = 2 ∨ icode.toNat = 7) ∧ 7 ≤ ifun.toNat ∨ icode.toNat = 6 ∧ 4 ≤ ifun.toNat := by
  unfold reservedFn
  split <;> simp_all [Cond.ofFn_eq_none_iff, AluFn.ofFn_eq_none_iff]

/-- A reserved sub-function stands in a defined class. -/
theorem icode_le_of_reservedFn {icode ifun : Nibble} (h : reservedFn icode ifun = true) : icode.toNat ≤ 11 := by
  rw [reservedFn_iff] at h
  omega

/-- Outside classes 2, 6 and 7 no sub-function is reserved (R59). -/
theorem reservedFn_of_ignored {icode : Nibble} (ifun : Nibble) (h : icode.toNat ∉ [2, 6, 7]) :
    reservedFn icode ifun = false := by
  rw [Bool.eq_false_iff, ne_eq, reservedFn_iff]
  simp only [List.mem_cons, List.not_mem_nil] at h
  omega

theorem Fields.functionDefined_iff (f : Fields) :
    f.functionDefined = true ↔ reservedFn f.icode f.ifun = false := by
  rw [Bool.eq_false_iff, ne_eq, reservedFn_iff, Fields.functionDefined]
  split
  · simp only [decide_eq_true_eq]; omega
  · split
    · simp only [decide_eq_true_eq]; omega
    · simp only [true_iff]; omega

/-- The defined classes without a register byte (R56). -/
theorem needRegs_eq_false_iff :
    ∀ n : Nibble, n.toNat ≤ 11 → (needRegs n = false ↔ n.toNat ∈ [0, 1, 7, 8, 9]) := by decide

/-- The defined classes without an immediate (R56). -/
theorem needImm_eq_false_iff :
    ∀ n : Nibble, n.toNat ≤ 11 → (needImm n = false ↔ n.toNat ∈ [0, 1, 2, 6, 9, 10, 11]) := by decide

theorem Fields.registersCarried_iff {f : Fields} (hc : f.icode.toNat ≤ 11) :
    f.registersCarried = true ↔ (needRegs f.icode = false → f.rA = 15 ∧ f.rB = 15) := by
  rw [needRegs_eq_false_iff _ hc, Fields.registersCarried]
  split <;> simp_all

theorem Fields.immediateCarried_iff {f : Fields} (hc : f.icode.toNat ≤ 11) :
    f.immediateCarried = true ↔ (needImm f.icode = false → f.valC = 0) := by
  rw [needImm_eq_false_iff _ hc, Fields.immediateCarried]
  split <;> simp_all

/-- The four checks, written from the class tables, are the conditions under which the decoder accepts fields. -/
theorem Fields.wellFormed_iff {f : Fields} :
    f.wellFormed = true ↔
      f.icode.toNat ≤ 11 ∧ reservedFn f.icode f.ifun = false ∧
        (needRegs f.icode = false → f.rA = 15 ∧ f.rB = 15) ∧ (needImm f.icode = false → f.valC = 0) := by
  simp only [Fields.wellFormed, Fields.classDefined, Bool.and_eq_true, decide_eq_true_eq, and_assoc]
  refine and_congr_right fun hc => ?_
  rw [Fields.functionDefined_iff, Fields.registersCarried_iff hc, Fields.immediateCarried_iff hc]

/-- The decoder of fields accepts exactly the well-formed fields' own bytes. -/
theorem decodeFields_eq_ok_iff_wellFormed {bs rest : List Byte} {f : Fields} :
    decodeFields bs = .ok f rest ↔ f.wellFormed = true ∧ bs = encodeFields f ++ rest := by
  rw [decodeFields_eq_ok, Fields.wellFormed_iff]
  simp only [and_assoc]

/-- Settles O2: `decodeFields_eq_ok` with the decoder's tests read as the well-formedness checks. -/
theorem fieldsAndBytesAgree : Obligations.FieldsAndBytesAgree :=
  fun _ _ _ => decodeFields_eq_ok_iff_wellFormed

/-! ## The canonical bytes -/

/-- Every instruction is well formed: its operands' types leave no ill-formed encoding. -/
theorem Instr.wellFormed_eq_true (i : Instr) : i.wellFormed = true := by
  cases i <;> rfl

/-- The canonical fields of an instruction stand for it. -/
theorem Instr.instr?_fields (i : Instr) : i.fields.instr? = some i := by
  cases i <;>
    simp [Instr.fields, Fields.instr?, Cond.ofFn, AluFn.ofFn, Instr.ofMove, Instr.ofAlu, Instr.ofJump]

/-- Decoding the canonical bytes of an instruction gives it back, whatever follows them. -/
theorem decode_encode (i : Instr) (rest : List Byte) : decode (encode i ++ rest) = .ok i rest :=
  decode_eq_ok.mpr
    ⟨i.fields, decodeFields_eq_ok_iff_wellFormed.mpr ⟨i.wellFormed_eq_true, rfl⟩, i.instr?_fields⟩

/-- Settles O1: the canonical fields are well formed, so the decoder of fields reads them back, and they stand for the
instruction. -/
theorem decodeOfEncodeIsTheInstruction : Obligations.DecodeOfEncodeIsTheInstruction :=
  fun i rest => ⟨i.wellFormed_eq_true, decode_encode i rest⟩

/-! ## Written words -/

/-- Settles O3: twelve closed words, evaluated. -/
theorem writtenWordsDecode : Obligations.WrittenWordsDecode := by
  unfold Obligations.WrittenWordsDecode
  decide

/-! ## The ignored nibbles -/

/-- Outside classes 2, 6 and 7 the sub-function does not change the instruction that fields stand for. -/
theorem Fields.instr?_of_ifun_ignored {f : Fields} (h : f.icode.toNat ∉ [2, 6, 7]) (n : Nibble) :
    Fields.instr? { f with ifun := n } = f.instr? := by
  unfold Fields.instr?
  -- One goal per class; in those that read the sub-function the hypothesis fails.
  split <;> simp_all

/-- Outside classes 2, 6 and 7 an instruction decoded at one sub-function is decoded at every other. -/
theorem decode_eq_ok_of_ifun_ignored {icode m n : Nibble} {bs rest : List Byte} {i : Instr}
    (h : icode.toNat ∉ [2, 6, 7]) (hd : decode (byteOfNibbles icode m :: bs) = .ok i rest) :
    decode (byteOfNibbles icode n :: bs) = .ok i rest := by
  obtain ⟨f, hf, hi⟩ := decode_eq_ok.mp hd
  obtain ⟨hc, -, hregs, himm, hb⟩ := decodeFields_eq_ok.mp hf
  rw [encodeFields, List.cons_append, List.cons.injEq] at hb
  obtain ⟨hb, hbs⟩ := hb
  obtain rfl : icode = f.icode := by simpa using congrArg hiNibble hb
  refine decode_eq_ok.mpr ⟨{ f with ifun := n }, decodeFields_eq_ok.mpr ?_, ?_⟩
  · exact ⟨hc, reservedFn_of_ignored n h, hregs, himm, by rw [hbs]; rfl⟩
  · rw [Fields.instr?_of_ifun_ignored h, hi]

/-- The decoder on an opcode byte that asks for a register byte, the register byte, and what follows: where the immediate is
there, the fields are read. -/
theorem decodeFields_of_takeImm_eq_some {icode ifun rA rB : Nibble} {bs rest : List Byte} {v : Word}
    (hc : icode.toNat ≤ 11) (hf : reservedFn icode ifun = false) (hr : needRegs icode = true)
    (hi : takeImm icode bs = some (v, rest)) :
    decodeFields (byteOfNibbles icode ifun :: byteOfNibbles rA rB :: bs) = .ok ⟨icode, ifun, rA, rB, v⟩ rest := by
  simp [decodeFields, takeRegs, hf, hr, hi, Nat.not_lt.mpr hc]

/-- The decoder on an opcode byte that asks for a register byte, the register byte, and what follows: where the immediate is
not there, it is missed by name. -/
theorem decodeFields_of_takeImm_eq_none {icode ifun rA rB : Nibble} {bs : List Byte}
    (hc : icode.toNat ≤ 11) (hf : reservedFn icode ifun = false) (hr : needRegs icode = true)
    (hi : takeImm icode bs = none) :
    decodeFields (byteOfNibbles icode ifun :: byteOfNibbles rA rB :: bs) = .reject .noImmediate := by
  simp [decodeFields, takeRegs, hf, hr, hi, Nat.not_lt.mpr hc]

/-- Two register bytes for which fields stand for the same instruction, at every immediate, are decoded alike. -/
theorem decode_congr_registerByte {icode ifun rA rB rA' rB' : Nibble} (bs : List Byte)
    (hc : icode.toNat ≤ 11) (hf : reservedFn icode ifun = false) (hr : needRegs icode = true)
    (hi : ∀ v, Fields.instr? ⟨icode, ifun, rA, rB, v⟩ = Fields.instr? ⟨icode, ifun, rA', rB', v⟩) :
    decode (byteOfNibbles icode ifun :: byteOfNibbles rA rB :: bs) =
      decode (byteOfNibbles icode ifun :: byteOfNibbles rA' rB' :: bs) := by
  unfold decode
  cases htake : takeImm icode bs with
  | none => rw [decodeFields_of_takeImm_eq_none hc hf hr htake, decodeFields_of_takeImm_eq_none hc hf hr htake]
  | some p =>
    rw [decodeFields_of_takeImm_eq_some hc hf hr htake, decodeFields_of_takeImm_eq_some hc hf hr htake]
    simp only [hi]

/-- Class 3 reads no rA (R62). -/
theorem decode_rA_ignored (ifun n rB : Nibble) (bs : List Byte) :
    decode (byteOfNibbles 3 ifun :: byteOfNibbles n rB :: bs) =
      decode (byteOfNibbles 3 ifun :: byteOfNibbles 15 rB :: bs) :=
  decode_congr_registerByte bs (by decide) rfl rfl fun _ => rfl

/-- Classes 10 and 11 read no rB (R62). -/
theorem decode_rB_ignored {icode : Nibble} (ifun rA n : Nibble) (bs : List Byte) (h : icode.toNat ∈ [10, 11]) :
    decode (byteOfNibbles icode ifun :: byteOfNibbles rA n :: bs) =
      decode (byteOfNibbles icode ifun :: byteOfNibbles rA 15 :: bs) := by
  simp only [List.mem_cons, List.not_mem_nil, or_false] at h
  obtain h | h := h <;>
    exact decode_congr_registerByte bs (by omega) (by simp [reservedFn, h]) (by simp [needRegs, h])
      fun _ => by simp [Fields.instr?, h]

/-- Settles O6: the sub-function by `decode_eq_ok_of_ifun_ignored` in both directions, the register nibbles by
`decode_congr_registerByte`. -/
theorem ignoredNibblesDoNotMatter : Obligations.IgnoredNibblesDoNotMatter :=
  ⟨fun _ _ _ h _ _ => ⟨decode_eq_ok_of_ifun_ignored h, decode_eq_ok_of_ifun_ignored h⟩,
    decode_rA_ignored, fun _ ifun rA n bs h => decode_rB_ignored ifun rA n bs h⟩

/-! ## Lengths -/

/-- An instruction is encoded in the class of the fields that stand for it. -/
theorem Fields.icode_of_instr? {f : Fields} {i : Instr} (h : f.instr? = some i) : i.fields.icode = f.icode := by
  apply BitVec.eq_of_toNat_eq
  unfold Fields.instr? at h
  split at h
  case h_3 hk =>
    obtain ⟨c, -, rfl⟩ := Option.map_eq_some_iff.mp h
    rw [hk]; cases c <;> rfl
  case h_7 hk =>
    obtain ⟨fn, -, rfl⟩ := Option.map_eq_some_iff.mp h
    rw [hk]; cases fn <;> rfl
  case h_8 hk =>
    obtain ⟨c, -, rfl⟩ := Option.map_eq_some_iff.mp h
    rw [hk]; cases c <;> rfl
  case h_13 => cases h
  all_goals
    next hk => cases h; rw [hk]; rfl

/-- The bytes of fields are as many as their class says (R56). -/
theorem encodeFields_length (f : Fields) : (encodeFields f).length = lengthOfClass f.icode := by
  unfold encodeFields lengthOfClass
  cases needRegs f.icode <;> cases needImm f.icode <;> rfl

/-- A decoded instruction took up as many bytes as its length says, and the rest is what follows. -/
theorem length_of_decode {bs rest : List Byte} {i : Instr} (h : decode bs = .ok i rest) :
    bs.length = i.length + rest.length := by
  obtain ⟨f, hf, hi⟩ := decode_eq_ok.mp h
  obtain ⟨-, -, -, -, rfl⟩ := decodeFields_eq_ok.mp hf
  rw [List.length_append, encodeFields_length, Instr.length, Fields.icode_of_instr? hi]

/-- Settles O7: the count by `length_of_decode`, the format of each instruction by its class. -/
theorem decodedLengthIsTheFormats : Obligations.DecodedLengthIsTheFormats := by
  intro bs i rest h
  exact ⟨length_of_decode h, by cases i <;> rfl⟩

end Sys2Proof

/-!
PROOFS. The statements about the fetch: what the decoder answers on the bytes at `pc`, the reserved sub-functions
(30_encoding.md section 3), the decoded instruction (40_cycle.md section 2) and its sequential address (10_state.md section 3).
-/

namespace Sys2Proof

/-! ## What the decoder answers -/

/-- Fields of a defined class whose sub-function is not reserved stand for an instruction. -/
theorem Fields.instr?_ne_none {f : Fields} (hc : f.icode.toNat ≤ 11) (hf : reservedFn f.icode f.ifun = false) :
    f.instr? ≠ none := by
  rw [Bool.eq_false_iff, ne_eq, reservedFn_iff] at hf
  unfold Fields.instr?
  split
  case h_13 => simp only [imp_false] at *; omega
  case h_3 | h_7 | h_8 =>
    rw [ne_eq, Option.map_eq_none_iff]
    simp only [Cond.ofFn_eq_none_iff, AluFn.ofFn_eq_none_iff]
    omega
  all_goals exact Option.some_ne_none _

/-- The reading of decoded fields as an instruction rejects nothing. -/
theorem decode_eq_reject {bs : List Byte} {r : Reject} : decode bs = .reject r ↔ decodeFields bs = .reject r := by
  unfold decode
  split
  · next h => simp [h]
  · next f rest h =>
    obtain ⟨hc, hf, -⟩ := decodeFields_eq_ok.mp h
    obtain ⟨i, hi⟩ := Option.ne_none_iff_exists'.mp (Fields.instr?_ne_none hc hf)
    simp [h, hi]

/-- The register byte is missing where the class carries one and no byte is left. -/
theorem takeRegs_eq_none {icode : Nibble} {bs : List Byte} :
    takeRegs icode bs = none ↔ needRegs icode = true ∧ bs = [] := by
  unfold takeRegs
  cases needRegs icode <;> cases bs <;> simp

/-- The immediate is missing where the class carries one and fewer than eight bytes are left. -/
theorem takeImm_eq_none {icode : Nibble} {bs : List Byte} :
    takeImm icode bs = none ↔ needImm icode = true ∧ bs.length < 8 := by
  unfold takeImm
  split
  · next h =>
    split
    · simp [h]
    · next hbs =>
      simp only [h, true_and, true_iff]
      iterate 8 (obtain _ | ⟨_, bs⟩ := bs; · simp)
      exact (hbs _ _ _ _ _ _ _ _ _ rfl).elim
  · next h => simp [h]

/-- What the decoder answers on an opcode byte `b` and the bytes after it: the class is undefined, or its sub-function is
reserved, or a byte that the class carries is missing, or an instruction is decoded. -/
inductive OpcodeByteResult (b : Byte) (bs : List Byte) : Decoded Instr → Prop
  | invalidClass (hc : 12 ≤ (hiNibble b).toNat) :
      OpcodeByteResult b bs (.reject (.invalidClass (hiNibble b)))
  | reservedFunction (hf : reservedFn (hiNibble b) (loNibble b) = true) :
      OpcodeByteResult b bs (.reject (.reservedFunction (hiNibble b) (loNibble b)))
  | missingByte (r : Reject) (hr : r = .noRegisterByte ∨ r = .noImmediate) (hc : (hiNibble b).toNat ≤ 11)
      (hf : reservedFn (hiNibble b) (loNibble b) = false) (hlen : bs.length + 1 < lengthOfClass (hiNibble b)) :
      OpcodeByteResult b bs (.reject r)
  | complete (i : Instr) (rest : List Byte) (hc : (hiNibble b).toNat ≤ 11)
      (hf : reservedFn (hiNibble b) (loNibble b) = false) (hlen : lengthOfClass (hiNibble b) ≤ bs.length + 1) :
      OpcodeByteResult b bs (.ok i rest)

/-- A decoded instruction has the length of the opcode byte's class. -/
theorem length_of_decode_cons {b : Byte} {bs rest : List Byte} {i : Instr} (h : decode (b :: bs) = .ok i rest) :
    i.length = lengthOfClass (hiNibble b) := by
  obtain ⟨f, hf, hi⟩ := decode_eq_ok.mp h
  rw [Instr.length, Fields.icode_of_instr? hi, hiNibble_of_decodeFields hf]

theorem opcodeByteResult_of_ok {b : Byte} {bs rest : List Byte} {i : Instr} (h : decode (b :: bs) = .ok i rest) :
    OpcodeByteResult b bs (.ok i rest) := by
  obtain ⟨f, hf, hi⟩ := decode_eq_ok.mp h
  obtain ⟨hc, hr, -, -, hb⟩ := decodeFields_eq_ok.mp hf
  rw [encodeFields, List.cons_append, List.cons.injEq] at hb
  obtain ⟨rfl, -⟩ := hb
  have hlen := length_of_decode h
  rw [length_of_decode_cons h, List.length_cons] at hlen
  exact .complete i rest (by simpa using hc) (by simpa using hr) (by omega)

/-- The tests of R63, one after the other. -/
theorem opcodeByteResult_of_reject {b : Byte} {bs : List Byte} {r : Reject} (h : decode (b :: bs) = .reject r) :
    OpcodeByteResult b bs (.reject r) := by
  rw [decode_eq_reject, decodeFields] at h
  split at h
  · next hc => cases h; exact .invalidClass hc
  · next hc =>
    split at h
    · next hf => cases h; exact .reservedFunction hf
    · next hf =>
      have hf := Bool.eq_false_iff.mpr hf
      have hc := Nat.not_lt.mp hc
      split at h
      · next htake =>
        cases h
        obtain ⟨hn, rfl⟩ := takeRegs_eq_none.mp htake
        exact .missingByte _ (.inl rfl) hc hf (by simp only [lengthOfClass, hn, if_true, List.length_nil]; omega)
      · next rA rB bs' htake =>
        split at h
        · next hnone =>
          cases h
          obtain ⟨hn, hlen⟩ := takeImm_eq_none.mp hnone
          refine .missingByte _ (.inr rfl) hc hf ?_
          rw [takeRegs_eq_some] at htake
          cases hregs : needRegs (hiNibble b) <;> simp_all [lengthOfClass] <;> omega
        · cases h

/-- What the decoder answers is one of the four results. -/
theorem opcodeByteResult (b : Byte) (bs : List Byte) : OpcodeByteResult b bs (decode (b :: bs)) := by
  cases h : decode (b :: bs) with
  | ok i rest => exact opcodeByteResult_of_ok h
  | reject r => exact opcodeByteResult_of_reject h

/-- The decoder rejects a sub-function as reserved exactly at a reserved opcode byte, whatever follows it. -/
theorem decode_eq_reservedFunction {b : Byte} {bs : List Byte} {m n : Nibble} :
    decode (b :: bs) = .reject (.reservedFunction m n) ↔
      reservedFn (hiNibble b) (loNibble b) = true ∧ m = hiNibble b ∧ n = loNibble b := by
  have h := opcodeByteResult b bs
  generalize decode (b :: bs) = d at h
  cases h with
  | invalidClass hc =>
    have hf : reservedFn (hiNibble b) (loNibble b) ≠ true := fun hf => by have := icode_le_of_reservedFn hf; omega
    simp [hf]
  | reservedFunction hf => simp [hf, eq_comm]
  | missingByte r hr hc hf hlen => obtain rfl | rfl := hr <;> simp [hf]
  | complete i rest hc hf hlen => simp [hf]

/-- The 30 reserved opcode bytes (R61). -/
theorem reservedFn_nibbles_iff (b : Byte) :
    reservedFn (hiNibble b) (loNibble b) = true ↔
      (0x27 ≤ b.toNat ∧ b.toNat ≤ 0x2F) ∨ (0x64 ≤ b.toNat ∧ b.toNat ≤ 0x6F) ∨ (0x77 ≤ b.toNat ∧ b.toNat ≤ 0x7F) := by
  have := b.isLt
  rw [reservedFn_iff, toNat_hiNibble, toNat_loNibble]
  omega

namespace Machine

/-! ## The opcode byte at pc -/

/-- Where the opcode byte lies outside memory the decoder has no byte. -/
theorem decode_fetchBytes_of_le {s : State} (h : s.cfg.capacity ≤ s.pc.toNat) :
    decode (fetchBytes s) = .reject .noOpcode := by
  rw [fetchBytes_of_le h]
  rfl

/-- The fetched bytes are rejected as reserved exactly where the opcode byte lies inside memory and is reserved. -/
theorem decode_fetchBytes_eq_reservedFunction {s : State} {m n : Nibble} :
    decode (fetchBytes s) = .reject (.reservedFunction m n) ↔
      s.pc.toNat < s.cfg.capacity ∧
        reservedFn (hiNibble (s.mem.get s.pc.toNat)) (loNibble (s.mem.get s.pc.toNat)) = true ∧
        m = hiNibble (s.mem.get s.pc.toNat) ∧ n = loNibble (s.mem.get s.pc.toNat) := by
  by_cases hpc : s.pc.toNat < s.cfg.capacity
  · rw [fetchBytes_of_lt hpc, decode_eq_reservedFunction]
    exact (and_iff_right hpc).symm
  · simp [decode_fetchBytes_of_le (Nat.le_of_not_lt hpc), hpc]

/-- The fetched bytes are rejected as an invalid class exactly where the opcode byte lies inside memory and is of class
12 to 15. -/
theorem decode_fetchBytes_eq_invalidClass {s : State} {n : Nibble} :
    decode (fetchBytes s) = .reject (.invalidClass n) ↔
      s.pc.toNat < s.cfg.capacity ∧ n = hiNibble (s.mem.get s.pc.toNat) ∧
        12 ≤ (hiNibble (s.mem.get s.pc.toNat)).toNat := by
  by_cases hpc : s.pc.toNat < s.cfg.capacity
  · rw [fetchBytes_of_lt hpc, decode_eq_invalidClass, decodeFields_eq_invalidClass]
    exact (and_iff_right hpc).symm
  · simp [decode_fetchBytes_of_le (Nat.le_of_not_lt hpc), hpc]

/-- A running machine at a reserved opcode byte does what the policy says. -/
theorem step_of_reservedFn {s : State} (hs : s.status = .aok) (hpc : s.pc.toNat < s.cfg.capacity)
    (hf : reservedFn (hiNibble (s.mem.get s.pc.toNat)) (loNibble (s.mem.get s.pc.toNat)) = true) :
    step s =
      rejectCycle (.reservedFunction (hiNibble (s.mem.get s.pc.toNat)) (loNibble (s.mem.get s.pc.toNat))) s :=
  step_of_reject hs (decode_fetchBytes_eq_reservedFunction.mpr ⟨hpc, hf, rfl, rfl⟩)

/-- Settles O5: the decoder's rejection by `decode_eq_reservedFunction`, the byte ranges by arithmetic on the nibbles, and the
step by `step_of_reservedFn`, one case per policy. -/
theorem reservedFunctionFollowsThePolicy : Obligations.ReservedFunctionFollowsThePolicy := by
  refine ⟨fun b bs => ?_, fun s hs hpc hf => ?_⟩
  · rw [decode_eq_reservedFunction, reservedFn_nibbles_iff]
    simp only [and_self, and_true]
  · rw [step_of_reservedFn hs hpc hf, rejectCycle]
    cases s.cfg.reservedPolicy <;> rfl

/-! ## The decoded instruction -/

/-- A running machine executes the instruction that the fetched bytes decode to. -/
theorem step_of_decode {s : State} {i : Instr} {rest : List Byte} (hs : s.status = .aok)
    (hd : decode (fetchBytes s) = .ok i rest) : step s = exec i s := by
  simp [step, running, hs, hd]

/-- Settles O8: the step by `step_of_decode`, the fetched bytes by `bytesAt_getElem?`. -/
theorem stepRunsTheDecodedInstruction : Obligations.StepRunsTheDecodedInstruction :=
  ⟨fun _ i _ hs hd => ⟨i.wellFormed_eq_true, step_of_decode hs hd⟩, fun s k => bytesAt_getElem? s s.pc.toNat 10 k⟩

/-- How many bytes are fetched. -/
theorem fetchBytes_length (s : State) : (fetchBytes s).length = min 10 (s.cfg.capacity - s.pc.toNat) :=
  bytesAt_length s s.pc.toNat 10

/-- Every instruction has at least its opcode byte. -/
theorem length_pos (i : Instr) : 0 < i.length := by
  rw [Instr.length, lengthOfClass]
  omega

/-- A decoded instruction lies inside memory as a whole. -/
theorem toNat_pc_add_length_le {s : State} {i : Instr} {rest : List Byte} (hd : decode (fetchBytes s) = .ok i rest) :
    s.pc.toNat + i.length ≤ s.cfg.capacity := by
  have hlen := length_of_decode hd
  have hpos := length_pos i
  rw [fetchBytes_length] at hlen
  omega

/-- Settles O31: the instruction lies inside memory (`toNat_pc_add_length_le`), whose capacity is below 2^64. -/
theorem sequentialAddressNeverWraps : Obligations.SequentialAddressNeverWraps := by
  rintro s i rest ⟨-, hC⟩ hd
  have hle := toNat_pc_add_length_le hd
  refine ⟨hle, ?_⟩
  rw [seqPc, BitVec.toNat_add, BitVec.toNat_ofNat, Nat.add_mod_mod, Nat.mod_eq_of_lt (by omega)]

end Machine

end Sys2Proof

/-!
PROOFS. The statements about memory: the invariant and the launch state (10_state.md sections 6 and 9, 70_reset_and_hazards.md
section 2), and the reads and writes (20_memory.md).
-/

namespace Sys2Proof.Machine

/-! ## What every step keeps -/

/-- What an instruction can do to the parameters and to memory: memory stays, or eight bytes inside it are stored. -/
theorem exec_cfg_mem {i : Instr} {s t : State} (h : exec i s = .next t) :
    t.cfg = s.cfg ∧
      (t.mem = s.mem ∨ ∃ a v : Word, a.toNat + 8 ≤ s.cfg.capacity ∧ t.mem = s.mem.setWord a.toNat v) := by
  obtain ⟨-, rfl⟩ | ⟨-, rfl⟩ | ⟨-, hc, ⟨-, hm⟩ | ⟨a, v, -, -, hb, hm⟩⟩ := exec_cases h
  · exact ⟨rfl, .inl rfl⟩
  · exact ⟨rfl, .inl rfl⟩
  · exact ⟨hc, .inl hm⟩
  · exact ⟨hc, .inr ⟨a, v, hb, hm⟩⟩

/-- What a step can do to the parameters and to memory. -/
theorem step_cfg_mem {s t : State} (h : step s = .next t) :
    t.cfg = s.cfg ∧
      (t.mem = s.mem ∨ ∃ a v : Word, a.toNat + 8 ≤ s.cfg.capacity ∧ t.mem = s.mem.setWord a.toNat v) := by
  obtain ⟨-, rfl⟩ | ⟨-, i, rest, -, he⟩ | ⟨-, r, -, hr⟩ := step_cases h
  · exact ⟨rfl, .inl rfl⟩
  · exact exec_cfg_mem he
  · rw [rejectCycle_eq_raise hr]
    exact ⟨rfl, .inl rfl⟩

/-- Settles O12: `step_cfg_mem`, its first half. -/
theorem stepKeepsTheParameters : Obligations.StepKeepsTheParameters :=
  fun _ _ h => (step_cfg_mem h).1

/-- Storing a 64-bit value lists no address but the old ones and its own eight. -/
theorem Memory.listed_setWord {m : Memory} {a : Nat} {v : Word} {c : Host.Cell} (h : c ∈ m.setWord a v) :
    (a ≤ c.1 ∧ c.1 < a + 8) ∨ c ∈ m :=
  Memory.listed_setBytes h

/-- Settles O11: memory stays, or a store inside memory keeps its canonical form and lists addresses below C only. -/
theorem stepKeepsTheInvariant : Obligations.StepKeepsTheInvariant := by
  rintro s t ⟨hcfg, hwf, hlisted⟩ h
  obtain ⟨hc, hm | ⟨a, v, hb, hm⟩⟩ := step_cfg_mem h
  · rw [State.Inv, hc, hm]
    exact ⟨hcfg, hwf, hlisted⟩
  · rw [State.Inv, hc, hm]
    refine ⟨hcfg, Memory.wf_setWord hwf _ _, fun c hmem => ?_⟩
    obtain ⟨-, hlt⟩ | hmem := Memory.listed_setWord hmem
    · omega
    · exact hlisted c hmem

/-! ## Reset and launch -/

/-- Memory is empty after reset, so the invariant is the constraint on the capacity. -/
theorem inv_resetWith {cfg : Config} (h : cfg.wf) : (State.resetWith cfg).Inv :=
  ⟨h, ⟨.nil, nofun⟩, nofun⟩

/-- Settles O10: `inv_resetWith` at the spec's parameters and at every other. -/
theorem resetMeetsTheInvariant : Obligations.ResetMeetsTheInvariant :=
  ⟨rfl, inv_resetWith (by decide), fun _ => inv_resetWith⟩

/-- Placing bytes keeps the invariant. -/
theorem inv_placeBytes {s : State} (h : s.Inv) (a : Nat) (bs : List Byte) : (placeBytes s a bs).Inv := by
  obtain ⟨hcfg, hwf, hlisted⟩ := h
  exact ⟨hcfg, placeBytes_wf hwf a bs, fun c hc => (placeBytes_listed hc).elim id (hlisted c)⟩

/-- Loading an image keeps the invariant. -/
theorem inv_loadImage {s : State} (h : s.Inv) (image : List Host.Cell) : (loadImage s image).Inv := by
  induction image generalizing s with
  | nil => exact h
  | cons c image ih => exact ih (inv_placeBytes h c.1 [c.2])

/-- Loading an image changes memory only. -/
theorem loadImage_frame (s : State) (image : List Host.Cell) :
    (loadImage s image).regs = s.regs ∧ (loadImage s image).flags = s.flags ∧ (loadImage s image).pc = s.pc ∧
      (loadImage s image).status = s.status ∧ (loadImage s image).cfg = s.cfg := by
  induction image generalizing s with
  | nil => exact ⟨rfl, rfl, rfl, rfl, rfl⟩
  | cons c image ih => exact ih (placeBytes s c.1 [c.2])

/-- One byte placed: it is there where its address lies inside memory, and dropped elsewhere. -/
theorem get_placeBytes_singleton (s : State) (x : Nat) (b : Byte) (a : Nat) :
    (placeBytes s x [b]).mem.get a = if a < s.cfg.capacity ∧ x = a then b else s.mem.get a := by
  rw [placeBytes]
  by_cases hx : x < s.cfg.capacity
  · have htake : [b].take (s.cfg.capacity - x) = [b] := List.take_of_length_le (by simp; omega)
    rw [htake, Memory.setBytes, Memory.setBytes, Memory.get_set]
    grind
  · rw [Nat.sub_eq_zero_of_le (Nat.not_lt.mp hx), List.take_zero, Memory.setBytes, if_neg (by omega)]

/-- After an image is loaded a byte below C holds what the last record for it says, and every other byte is as before. -/
theorem get_loadImage (s : State) (image : List Host.Cell) (a : Nat) :
    (loadImage s image).mem.get a =
      if a < s.cfg.capacity then ((image.reverse.find? fun c => c.1 = a).map fun c => c.2).getD (s.mem.get a)
      else s.mem.get a := by
  induction image generalizing s with
  | nil => simp [loadImage]
  | cons c image ih =>
    rw [loadImage, ih, get_placeBytes_singleton, placeBytes_cfg, List.reverse_cons, List.find?_append]
    by_cases ha : a < s.cfg.capacity
    · cases hfind : image.reverse.find? fun c => c.1 = a with
      | some d => simp [ha]
      | none => by_cases hc : c.1 = a <;> simp [ha, hc]
    · simp [ha]

/-- Settles O20: the bytes by `get_loadImage` from the empty memory of reset, the rest by `loadImage_frame`, the invariant by
`inv_loadImage`. -/
theorem launchStateIsResetAndImage : Obligations.LaunchStateIsResetAndImage := by
  intro cfg image
  obtain ⟨hregs, hflags, hpc, hstatus, hcfg⟩ := loadImage_frame (State.resetWith cfg) image
  exact ⟨get_loadImage (State.resetWith cfg) image, hregs, hflags, hpc, hstatus, hcfg,
    fun h => inv_loadImage (inv_resetWith h) image⟩

/-! ## Reads determine a canonical memory -/

/-- The first listed byte of a canonical memory does not read as unlisted. -/
theorem Memory.get_cons_ne_unlisted {c : Host.Cell} {m : Memory} (h : Memory.wf (c :: m)) :
    Memory.get (c :: m) c.1 ≠ Memory.unlisted := by
  simpa [Memory.get] using h.2 c (by simp)

/-- What follows the first listed byte is canonical, at addresses above it. -/
theorem Memory.wf_cons {c : Host.Cell} {m : Memory} (h : Memory.wf (c :: m)) :
    (∀ d ∈ m, c.1 < d.1) ∧ Memory.wf m := by
  obtain ⟨hp, hz⟩ := h
  rw [List.pairwise_cons] at hp
  exact ⟨hp.1, hp.2, fun d hd => hz d (List.mem_cons_of_mem c hd)⟩

/-- Two canonical memories with the same reads do not have a least listed address below the other's. -/
theorem Memory.head_le_head {c d : Host.Cell} {m n : Memory} (hm : Memory.wf (c :: m)) (hn : Memory.wf (d :: n))
    (h : ∀ a, Memory.get (c :: m) a = Memory.get (d :: n) a) : d.1 ≤ c.1 := by
  by_contra hlt
  refine Memory.get_cons_ne_unlisted hm ((h c.1).trans (Memory.get_of_all_gt fun e he => ?_))
  obtain rfl | he := List.mem_cons.mp he
  · omega
  · have := (Memory.wf_cons hn).1 e he
    omega

/-- Canonical memories with the same reads are equal: their least listed addresses are, and so on. -/
theorem Memory.ext_reads {m n : Memory} (hm : m.wf) (hn : n.wf) (h : ∀ a, m.get a = n.get a) : m = n := by
  induction m generalizing n with
  | nil =>
    cases n with
    | nil => rfl
    | cons d n => exact absurd (h d.1).symm (Memory.get_cons_ne_unlisted hn)
  | cons c m ih =>
    cases n with
    | nil => exact absurd (h c.1) (Memory.get_cons_ne_unlisted hm)
    | cons d n =>
      have haddr : c.1 = d.1 :=
        Nat.le_antisymm (Memory.head_le_head hn hm fun a => (h a).symm) (Memory.head_le_head hm hn h)
      have hbyte : c.2 = d.2 := by simpa [Memory.get, haddr] using h c.1
      obtain ⟨hgtm, hwfm⟩ := Memory.wf_cons hm
      obtain ⟨hgtn, hwfn⟩ := Memory.wf_cons hn
      have htail : m = n := ih hwfm hwfn fun a => by
        by_cases ha : c.1 = a
        · subst ha
          rw [Memory.get_of_all_gt hgtm, Memory.get_of_all_gt (by rwa [haddr])]
        · simpa [Memory.get, ha, ← haddr] using h a
      rw [htail, Prod.ext haddr hbyte]

/-- Settles O24: `Memory.ext_reads`, by induction on the two lists. -/
theorem canonicalMemoryIsItsBytes : Obligations.CanonicalMemoryIsItsBytes :=
  fun _ _ hm hn h => Memory.ext_reads hm hn h

/-! ## Bounds-checked reads and writes -/

/-- A load inside memory hands on the value there. -/
theorem withLoad_of_le {s : State} {a : Word} (k : Word → State) (h : a.toNat + 8 ≤ s.cfg.capacity) :
    withLoad s a k = k (s.mem.getWord a.toNat) := by
  rw [withLoad_eq, if_pos h]

/-- The state with a 64-bit value stored at an address, little-endian (R33). -/
def storeWord (s : State) (a v : Word) : State := { s with mem := s.mem.setWord a.toNat v }

/-- A store inside memory goes on from the state with the value stored. -/
theorem withStore_of_le {s : State} {a : Word} (v : Word) (k : State → State) (h : a.toNat + 8 ≤ s.cfg.capacity) :
    withStore s a v k = k (storeWord s a v) := by
  rw [withStore_eq, if_pos h]
  rfl

section storeWord
variable (s : State) (a v : Word)

@[simp] theorem storeWord_flags : (storeWord s a v).flags = s.flags := rfl
@[simp] theorem storeWord_pc : (storeWord s a v).pc = s.pc := rfl
@[simp] theorem storeWord_status : (storeWord s a v).status = s.status := rfl
@[simp] theorem storeWord_mem : (storeWord s a v).mem = s.mem.setWord a.toNat v := rfl
@[simp] theorem storeWord_cfg : (storeWord s a v).cfg = s.cfg := rfl
@[simp] theorem readReg_storeWord (r : RegId) : readReg (storeWord s a v) r = readReg s r := by cases r <;> rfl

end storeWord

/-- Equal memories read alike. -/
theorem sameMemory_of_mem_eq {s t : State} (h : t.mem = s.mem) : SameMemory s t := fun a => by rw [h]

/-- A memory with a 64-bit value stored holds its bytes there, and every other byte as before. -/
theorem storedWord_of_mem_eq {s t : State} {a v : Word} (h : t.mem = s.mem.setWord a.toNat v) :
    StoredWord s t a v := by
  refine ⟨fun k hk => ?_, fun b hb => ?_⟩
  · rw [h, Memory.get_setWord, if_pos ⟨Nat.le_add_right _ _, by omega⟩, Nat.add_sub_cancel_left]
    rfl
  · rw [h, Memory.get_setWord_outside _ _ _ hb]

/-- The 64-bit value at an address, as a number: the sum of byte `i` times 2^(8*i) (R32). -/
theorem Memory.toNat_getWord (m : Memory) (a : Nat) :
    (m.getWord a).toNat = ∑ i ∈ Finset.range 8, (m.get (a + i)).toNat * 2 ^ (8 * i) := by
  rw [Memory.getWord, toNat_wordOfBytes]
  simp only [Finset.sum_range_succ, Finset.sum_range_zero, Nat.add_zero]
  omega

/-- Settles O21: the byte by the bounds check, the missing opcode byte by the empty fetch, the eight bytes by
`Memory.toNat_getWord`. -/
theorem memReadIsBoundedAndLittleEndian : Obligations.MemReadIsBoundedAndLittleEndian := by
  refine ⟨fun s a => ?_, fun s hs hnone => ?_, fun s a k => ⟨fun hb => ?_, fun hb => ?_⟩⟩
  · simp [memRead1, inBounds]
  · have hpc : s.cfg.capacity ≤ s.pc.toNat := by simpa [memRead1, inBounds] using hnone
    exact step_of_reject hs (decode_fetchBytes_of_le hpc)
  · rw [withLoad_eq, if_neg hb]
    rfl
  · exact ⟨_, withLoad_of_le k hb, Memory.toNat_getWord _ _⟩

/-- What an instruction can do to the bytes of memory: nothing, or the eight bytes at its store address hold its store
data. -/
theorem sameMemory_or_storedWord_of_exec {i : Instr} {s t : State} (h : exec i s = .next t) :
    SameMemory s t ∨ ∃ a v, storeAddress? i s = some a ∧ storeData? i s = some v ∧ StoredWord s t a v := by
  obtain ⟨-, rfl⟩ | ⟨-, rfl⟩ | ⟨-, -, ⟨-, hm⟩ | ⟨a, v, ha, hv, -, hm⟩⟩ := exec_cases h
  · exact .inl (sameMemory_of_mem_eq rfl)
  · exact .inl (sameMemory_of_mem_eq rfl)
  · exact .inl (sameMemory_of_mem_eq hm)
  · exact .inr ⟨a, v, ha, hv, storedWord_of_mem_eq hm⟩

/-- Settles O22: the store by `withStore_eq`, the instructions by `sameMemory_or_storedWord_of_exec`. -/
theorem memWriteIsBoundedAndLittleEndian : Obligations.MemWriteIsBoundedAndLittleEndian := by
  refine ⟨fun s a v k => ⟨fun hb => ?_, fun hb => ?_⟩, fun _ _ _ h => sameMemory_or_storedWord_of_exec h⟩
  · rw [withStore_eq, if_neg hb]
    rfl
  · exact ⟨_, withStore_of_le v k hb, storedWord_of_mem_eq rfl⟩

end Sys2Proof.Machine

/-!
PROOFS. The statements about stops and runs: what raises `ADR` and `INS` (60_exceptions.md section 1), where a step has no
outcome, and the end of a run (70_reset_and_hazards.md section 3).
-/

namespace Sys2Proof.Machine

/-! ## Where a step has no outcome -/

/-- Every instruction answers a next state on every state. -/
theorem exec_total (i : Instr) (s : State) : ∃ t, exec i s = .next t := by
  cases i <;> exact ⟨_, rfl⟩

/-- A rejection answers no state exactly if it is a reserved sub-function under the policy `refuse`. -/
theorem rejectCycle_ne_next_iff {r : Reject} {s : State} :
    (∀ t, rejectCycle r s ≠ .next t) ↔ s.cfg.reservedPolicy = .refuse ∧ ∃ m n, r = .reservedFunction m n := by
  cases r with
  | reservedFunction m n => cases hp : s.cfg.reservedPolicy <;> simp [rejectCycle, hp]
  | _ => simp [rejectCycle]

/-- A step answers no state exactly if the machine is running, the policy is `refuse` and the fetched bytes are rejected as a
reserved sub-function. -/
theorem step_ne_next_iff {s : State} :
    (∀ t, step s ≠ .next t) ↔
      s.status = .aok ∧ s.cfg.reservedPolicy = .refuse ∧
        ∃ m n, decode (fetchBytes s) = .reject (.reservedFunction m n) := by
  by_cases hs : s.status = .aok
  · cases hd : decode (fetchBytes s) with
    | ok i rest =>
      obtain ⟨t, ht⟩ := exec_total i s
      simp [step_of_decode hs hd, ht]
    | reject r => simp [step_of_reject hs hd, rejectCycle_ne_next_iff, hs]
  · simp [step_of_terminal hs, hs]

/-- Settles O17: the outcomeless steps by `step_ne_next_iff`, with the rejection read at the opcode byte; the instructions by
`exec_total`. -/
theorem onlyReservedFunctionsHaveNoOutcome : Obligations.OnlyReservedFunctionsHaveNoOutcome := by
  refine ⟨fun s => ?_, exec_total⟩
  simp only [step_ne_next_iff, decode_fetchBytes_eq_reservedFunction, exists_and_left, exists_eq, and_true]

/-! ## What raises `INS` -/

/-- No instruction raises `INS`. -/
theorem exec_status_ne_ins {i : Instr} {s t : State} (hs : s.status = .aok) (h : exec i s = .next t) :
    t.status ≠ .ins := by
  obtain ⟨-, rfl⟩ | ⟨-, rfl⟩ | ⟨hst, -⟩ := exec_cases h
  · simp
  · simp
  · simp [hst, hs]

/-- A rejection raises `INS` exactly if it is an undefined class, or a reserved sub-function under `ins_fault`. -/
theorem rejectCycle_status_eq_ins_iff {r : Reject} {s t : State} (h : rejectCycle r s = .next t) :
    t.status = .ins ↔
      (∃ n, r = .invalidClass n) ∨ s.cfg.reservedPolicy = .insFault ∧ ∃ m n, r = .reservedFunction m n := by
  obtain ⟨rfl, hr⟩ | ⟨rfl, hr⟩ := rejectCycle_cases h
  · obtain rfl | rfl | rfl := hr <;> simp
  · simpa using hr

/-- A running machine's step raises `INS` exactly where the decoder rejects an undefined class, or a reserved sub-function
under `ins_fault`. -/
theorem step_status_eq_ins_iff {s t : State} (hs : s.status = .aok) (h : step s = .next t) :
    t.status = .ins ↔
      (∃ n, decode (fetchBytes s) = .reject (.invalidClass n)) ∨
        s.cfg.reservedPolicy = .insFault ∧ ∃ m n, decode (fetchBytes s) = .reject (.reservedFunction m n) := by
  obtain ⟨hn, -⟩ | ⟨-, i, rest, hd, he⟩ | ⟨-, r, hd, hr⟩ := step_cases h
  · exact absurd hs hn
  · simp [hd, exec_status_ne_ins hs he]
  · simp only [hd, Decoded.reject.injEq]
    exact rejectCycle_status_eq_ins_iff hr

/-- Settles O16: `step_status_eq_ins_iff`, with the two rejections read at the opcode byte. -/
theorem insIsRaisedByTheOpcodeByteOnly : Obligations.InsIsRaisedByTheOpcodeByteOnly := by
  intro s t hs h
  rw [step_status_eq_ins_iff hs h]
  simp only [decode_fetchBytes_eq_invalidClass, decode_fetchBytes_eq_reservedFunction, exists_and_left, exists_eq_left,
    exists_eq, and_true]
  tauto

/-! ## What raises `ADR` -/

/-- The rejections of a byte that is not there (R63). -/
def IsMissingByte (r : Reject) : Prop := r = .noOpcode ∨ r = .noRegisterByte ∨ r = .noImmediate

/-- The only instructions that take a running machine to `ADR` are those whose data access lies outside memory. -/
theorem exec_status_eq_adr_iff {i : Instr} {s t : State} (hs : s.status = .aok) (h : exec i s = .next t) :
    t.status = .adr ↔ dataOutside i s := by
  constructor
  · intro ht
    obtain ⟨-, rfl⟩ | ⟨hout, -⟩ | ⟨hst, -⟩ := exec_cases h
    · cases ht
    · exact hout
    · rw [hst, hs] at ht
      cases ht
  · intro hout
    rw [exec_of_dataOutside hout] at h
    cases h
    exact raise_status s .adr

/-- A rejection raises `ADR` exactly if a byte is not there. -/
theorem rejectCycle_status_eq_adr_iff {r : Reject} {s t : State} (h : rejectCycle r s = .next t) :
    t.status = .adr ↔ IsMissingByte r := by
  obtain ⟨rfl, hr⟩ | ⟨rfl, ⟨n, rfl⟩ | ⟨-, m, n, rfl⟩⟩ := rejectCycle_cases h
  · exact iff_of_true rfl hr
  · simp [IsMissingByte]
  · simp [IsMissingByte]

/-- An instruction has at most ten bytes (R50). -/
theorem lengthOfClass_le (icode : Nibble) : lengthOfClass icode ≤ 10 := by
  unfold lengthOfClass
  cases needRegs icode <;> cases needImm icode <;> decide

/-- The bytes fetched after the opcode byte are as many as its class carries, exactly where those lie inside memory. -/
theorem lengthOfClass_le_iff {s : State} (icode : Nibble) (hpc : s.pc.toNat < s.cfg.capacity) :
    lengthOfClass icode ≤ (bytesAt s (s.pc.toNat + 1) 9).length + 1 ↔
      s.pc.toNat + lengthOfClass icode ≤ s.cfg.capacity := by
  have := lengthOfClass_le icode
  rw [bytesAt_length]
  omega

/-- The fetched bytes are rejected for a byte that is not there exactly where a byte that the fetch reads lies outside
memory. -/
theorem decode_fetchBytes_isMissingByte_iff {s : State} :
    (∃ r, decode (fetchBytes s) = .reject r ∧ IsMissingByte r) ↔ fetchOutside s := by
  by_cases hpc : s.pc.toNat < s.cfg.capacity
  · have hle : ¬ s.cfg.capacity ≤ s.pc.toNat := Nat.not_le.mpr hpc
    have hlen := lengthOfClass_le_iff (hiNibble (s.mem.get s.pc.toNat)) hpc
    have hres := opcodeByteResult (s.mem.get s.pc.toNat) (bytesAt s (s.pc.toNat + 1) 9)
    rw [fetchBytes_of_lt hpc, fetchOutside]
    generalize decode _ = d at hres ⊢
    cases hres with
    | invalidClass hc => simp [IsMissingByte, hle, Nat.not_le.mpr hc]
    | reservedFunction hf => simp [IsMissingByte, hle, hf]
    | missingByte r hr hc hf hshort =>
      have hout : s.cfg.capacity < s.pc.toNat + lengthOfClass (hiNibble (s.mem.get s.pc.toNat)) := by omega
      simp [IsMissingByte, hr, hc, hf, hout]
    | complete i rest hc hf henough => simp [hle, Nat.not_lt.mpr (hlen.mp henough)]
  · have hle := Nat.le_of_not_lt hpc
    simp [decode_fetchBytes_of_le hle, IsMissingByte, fetchOutside, hle]

/-- A running machine's step raises `ADR` exactly where a byte is not there or the decoded instruction's data access lies
outside memory. -/
theorem step_status_eq_adr_iff {s t : State} (hs : s.status = .aok) (h : step s = .next t) :
    t.status = .adr ↔
      (∃ r, decode (fetchBytes s) = .reject r ∧ IsMissingByte r) ∨
        ∃ i rest, decode (fetchBytes s) = .ok i rest ∧ dataOutside i s := by
  obtain ⟨hn, -⟩ | ⟨-, i, rest, hd, he⟩ | ⟨-, r, hd, hr⟩ := step_cases h
  · exact absurd hs hn
  · simp [hd, exec_status_eq_adr_iff hs he]
  · simp [hd, rejectCycle_status_eq_adr_iff hr]

/-- Settles O15: `step_status_eq_adr_iff`, with the missing byte read as a fetch outside memory. -/
theorem adrIsRaisedByOutsideAccessOnly : Obligations.AdrIsRaisedByOutsideAccessOnly := by
  intro s t hs h
  rw [step_status_eq_adr_iff hs h, decode_fetchBytes_isMissingByte_iff]

/-! ## Runs -/

/-- A run that answers a state after its first cycle had a next state in that cycle. -/
theorem exists_step_of_runFor_succ {n : Nat} {s t : State} (h : runFor (n + 1) s = .next t) :
    ∃ u, step s = .next u ∧ runFor n u = .next t := by
  cases hstep : step s with
  | next u => exact ⟨u, rfl, by rwa [runFor_succ_of_step hstep] at h⟩
  | fault r => cases r
  | refused r =>
    have hcore : Sys2Proof.core.step s = .refused r := hstep
    simp [runFor, Host.Core.run, hcore] at h

/-- A run goes on from the state it has reached. -/
theorem runFor_add {n : Nat} {s t : State} (h : runFor n s = .next t) (k : Nat) : runFor (n + k) s = runFor k t := by
  induction n generalizing s with
  | zero =>
    cases h
    rw [Nat.zero_add]
  | succ n ih =>
    obtain ⟨u, hu, hrun⟩ := exists_step_of_runFor_succ h
    rw [Nat.succ_add, runFor_succ_of_step hu, ih hrun]

/-- Of two ends of a run, the one reached first stays. -/
theorem runFor_end_unique {n m : Nat} {s t u : State} (hnm : n ≤ m) (ht : runFor n s = .next t)
    (hterm : t.status ≠ .aok) (hu : runFor m s = .next u) : t = u := by
  obtain ⟨k, rfl⟩ := Nat.exists_eq_add_of_le hnm
  rw [runFor_add ht, runFor_of_terminal hterm] at hu
  cases hu
  rfl

/-- Settles O18: the end that is reached in fewer cycles is the other one. -/
theorem runEndIsUnique : Obligations.RunEndIsUnique := by
  rintro s t u ⟨n, ht, htt⟩ ⟨m, hu, hut⟩
  obtain hnm | hmn := Nat.le_total n m
  · exact runFor_end_unique hnm ht htt hu
  · exact (runFor_end_unique hmn hu hut ht).symm

/-- The meaning of the class-7 instruction of a condition. -/
@[simp] theorem exec_ofJump (c : Cond) (dest : Word) (s : State) :
    exec (Instr.ofJump c dest) s = .next (jumpIf c dest s) := by
  cases c <;> rfl

/-- A taken jump to its own address changes nothing. -/
theorem jumpIf_self {c : Cond} {s : State} (hc : condHolds c s.flags = true) : jumpIf c s.pc s = s := by
  rw [jumpIf, if_pos hc]
  rfl

/-- A state that is its own next state stays for any number of cycles. -/
theorem runFor_of_step_self {s : State} (h : step s = .next s) (n : Nat) : runFor n s = .next s := by
  induction n with
  | zero => rfl
  | succ n ih => rw [runFor_succ_of_step h, ih]

/-- Settles O19: one step of the jump answers the state itself. -/
theorem jumpToSelfRunsForever : Obligations.JumpToSelfRunsForever := by
  intro s c rest hs hc hd n
  refine runFor_of_step_self ?_ n
  rw [step_of_decode hs hd, exec_ofJump, jumpIf_self hc]

end Sys2Proof.Machine

/-!
PROOFS. The statements about each instruction: its result and its frame (spec/41 to 47), and the instructions together
(47_push_pop.md, 43_load_store.md).
-/

namespace Sys2Proof.Machine

/-! ## halt and nop -/

/-- Settles O32: `halt` is a `raise`. -/
theorem haltEffect : Obligations.HaltEffect := fun _ => rfl

/-- Settles O33: `nop` sets `pc` to the sequential address. -/
theorem nopEffect : Obligations.NopEffect := fun _ => rfl

/-! ## Registers after a write -/

/-- One register written last: the other registers read as before. -/
theorem onlyRegister_of_reads {s t : State} {r : RegId} {v : Word}
    (h : ∀ q, readReg t q = readReg (writeReg s r v) q) : OnlyRegister s t r v :=
  fun q => (h q).trans (readReg_writeReg s r q v)

/-! ## The moves -/

/-- Class 2 (R110): the destination takes the source where the condition holds, and only `pc` changes besides. -/
theorem moveIf_effect (c : Cond) (rA rB : RegId) (s : State) :
    OnlyRegister s (moveIf c rA rB s) (if condHolds c s.flags then rB else .none) (readReg s rA) ∧
      (moveIf c rA rB s).pc = s.pc + 2 ∧ (moveIf c rA rB s).flags = s.flags ∧
      (moveIf c rA rB s).status = s.status ∧ SameMemory s (moveIf c rA rB s) ∧ (moveIf c rA rB s).cfg = s.cfg :=
  ⟨onlyRegister_of_reads fun _ => readReg_setPc .., rfl, moveIf_flags c rA rB s, by simp [moveIf],
    sameMemory_of_mem_eq (by simp [moveIf]), by simp [moveIf]⟩

/-- Settles O34: each of the seven is `moveIf` at its condition. -/
theorem moveEffects : Obligations.MoveEffects := by
  intro rA rB s
  exact ⟨⟨_, rfl, moveIf_effect .always rA rB s⟩, ⟨_, rfl, moveIf_effect .le rA rB s⟩,
    ⟨_, rfl, moveIf_effect .l rA rB s⟩, ⟨_, rfl, moveIf_effect .e rA rB s⟩, ⟨_, rfl, moveIf_effect .ne rA rB s⟩,
    ⟨_, rfl, moveIf_effect .ge rA rB s⟩, ⟨_, rfl, moveIf_effect .g rA rB s⟩⟩

/-- Settles O35: one register write and the sequential address. -/
theorem irmovqEffect : Obligations.IrmovqEffect := fun imm rB s =>
  ⟨_, rfl, onlyRegister_of_reads fun _ => readReg_setPc .., rfl, by simp, by simp, sameMemory_of_mem_eq (by simp),
    by simp⟩

/-! ## The jumps -/

/-- Settles O41: each of the seven is `jumpIf` at its condition. -/
theorem jumpEffects : Obligations.JumpEffects :=
  fun _ _ => ⟨rfl, rfl, rfl, rfl, rfl, rfl, rfl⟩

/-! ## Arithmetic and logic -/

/-- The sign bit of a word, as a comparison. -/
theorem msb_eq_true_iff (v : Word) : v.msb = true ↔ v.toInt < 0 := by
  rw [BitVec.msb_eq_toInt, decide_eq_true_eq]

/-- The overflow rule of the sum (R75) is that the signed sum does not fit in 64 bits. -/
theorem aluOverflow_add_iff (a b : Word) :
    aluOverflow .add a b = true ↔ b.toInt + a.toInt < -(2 ^ 63) ∨ 2 ^ 63 - 1 < b.toInt + a.toInt := by
  have h : aluOverflow .add a b = a.saddOverflow b := (BitVec.saddOverflow_eq a b).symm
  rw [h, BitVec.saddOverflow, Bool.or_eq_true, decide_eq_true_eq, decide_eq_true_eq]
  omega

/-- The overflow rule of the difference (R75, D13) is that the signed difference does not fit in 64 bits. -/
theorem aluOverflow_sub_iff (a b : Word) :
    aluOverflow .sub a b = true ↔ b.toInt - a.toInt < -(2 ^ 63) ∨ 2 ^ 63 - 1 < b.toInt - a.toInt := by
  have h : aluOverflow .sub a b = b.ssubOverflow a := by
    rw [BitVec.ssubOverflow_eq, aluOverflow]
    cases a.msb <;> cases b.msb <;> cases (b - a).msb <;> rfl
  rw [h, BitVec.ssubOverflow, Bool.or_eq_true, decide_eq_true_eq, decide_eq_true_eq]
  omega

/-- Class 6 (R130): rB takes the result and the flags are those of R75; only `pc` changes besides. -/
theorem aluOp_effect (fn : AluFn) (rA rB : RegId) (s : State) :
    OnlyRegister s (aluOp fn rA rB s) rB (aluResult fn (readReg s rA) (readReg s rB)) ∧
      ((aluOp fn rA rB s).flags.zf = true ↔ aluResult fn (readReg s rA) (readReg s rB) = 0) ∧
      ((aluOp fn rA rB s).flags.sf = true ↔ (aluResult fn (readReg s rA) (readReg s rB)).toInt < 0) ∧
      (aluOp fn rA rB s).flags.of = aluOverflow fn (readReg s rA) (readReg s rB) ∧
      (aluOp fn rA rB s).pc = s.pc + 2 ∧ (aluOp fn rA rB s).status = s.status ∧ SameMemory s (aluOp fn rA rB s) ∧
      (aluOp fn rA rB s).cfg = s.cfg := by
  refine ⟨onlyRegister_of_reads fun q => ?_, ?_, ?_, ?_, rfl, ?_, sameMemory_of_mem_eq ?_, ?_⟩
  · simp [aluOp, readReg_writeReg]
  · simp [aluFlags]
  · rw [aluOp_flags, aluFlags, msb_eq_true_iff]
  · rw [aluOp_flags, aluFlags]
  all_goals simp [aluOp]

/-- Settles O38: `aluOp_effect` at the sum, with `OF` by `aluOverflow_add_iff`. -/
theorem addqEffect : Obligations.AddqEffect := by
  intro rA rB s
  have h := aluOp_effect .add rA rB s
  rw [aluResult, BitVec.add_comm (readReg s rA)] at h
  obtain ⟨hreg, hzf, hsf, hof, hframe⟩ := h
  exact ⟨_, rfl, hreg, hzf, hsf, by rw [hof, aluOverflow_add_iff], hframe⟩

/-- Settles O39: `aluOp_effect` at the difference, with `OF` by `aluOverflow_sub_iff`. -/
theorem subqEffect : Obligations.SubqEffect := by
  intro rA rB s
  obtain ⟨hreg, hzf, hsf, hof, hframe⟩ := aluOp_effect .sub rA rB s
  exact ⟨_, rfl, hreg, hzf.trans sub_eq_zero, hsf, by rw [hof, aluOverflow_sub_iff], hframe⟩

/-- Settles O40: `aluOp_effect` at the two logical functions, which clear `OF`. -/
theorem andqXorqEffect : Obligations.AndqXorqEffect :=
  fun rA rB s => ⟨⟨_, rfl, aluOp_effect .and rA rB s⟩, ⟨_, rfl, aluOp_effect .xor rA rB s⟩⟩

/-! ## The load and the store -/

@[simp] theorem effectiveAddress_none (s : State) (disp : Word) : effectiveAddress s disp .none = disp :=
  BitVec.add_zero disp

/-- A store inside memory, and `pc` advanced (R121). -/
theorem exec_rmmovq_of_le {rA rB : RegId} {disp : Word} {s : State}
    (h : (effectiveAddress s disp rB).toNat + 8 ≤ s.cfg.capacity) :
    exec (.rmmovq rA disp rB) s =
      .next (setPc (storeWord s (effectiveAddress s disp rB) (readReg s rA)) (s.pc + 10)) := by
  rw [exec, execRmmovq, withStore_of_le _ _ h]
  rfl

/-- A load from memory into rA, and `pc` advanced (R122). -/
theorem exec_mrmovq_of_le {rA rB : RegId} {disp : Word} {s : State}
    (h : (effectiveAddress s disp rB).toNat + 8 ≤ s.cfg.capacity) :
    exec (.mrmovq disp rB rA) s =
      .next (setPc (writeReg s rA (s.mem.getWord (effectiveAddress s disp rB).toNat)) (s.pc + 10)) := by
  rw [exec, execMrmovq, withLoad_of_le _ h]
  rfl

/-- The bytes of the 64-bit value at an address are those of memory. -/
theorem Memory.extractLsb'_getWord (m : Memory) (a : Nat) {k : Nat} (hk : k < 8) :
    (m.getWord a).extractLsb' (8 * k) 8 = m.get (a + k) := by
  have hbytes : bytesOfWord (m.getWord a) = [m.get a, m.get (a + 1), m.get (a + 2), m.get (a + 3), m.get (a + 4),
      m.get (a + 5), m.get (a + 6), m.get (a + 7)] := bytesOfWord_wordOfBytes ..
  simp only [bytesOfWord, List.cons.injEq, and_true] at hbytes
  obtain ⟨h0, h1, h2, h3, h4, h5, h6, h7⟩ := hbytes
  interval_cases k
  exacts [h0, h1, h2, h3, h4, h5, h6, h7]

/-- Settles O36: `exec_rmmovq_of_le`, its bytes by `storedWord_of_mem_eq`. -/
theorem rmmovqEffect : Obligations.RmmovqEffect := fun rA rB disp s h =>
  ⟨_, exec_rmmovq_of_le h, rfl, storedWord_of_mem_eq rfl, fun _ => by simp, rfl, rfl, rfl, rfl⟩

/-- Settles O37: `exec_mrmovq_of_le`, its bytes by `Memory.extractLsb'_getWord`. -/
theorem mrmovqEffect : Obligations.MrmovqEffect := fun rA rB disp s h =>
  ⟨_, _, exec_mrmovq_of_le h, rfl, fun _ hk => Memory.extractLsb'_getWord _ _ hk,
    onlyRegister_of_reads fun _ => readReg_setPc .., rfl, by simp, by simp, sameMemory_of_mem_eq (by simp), by simp⟩

/-! ## The stack instructions -/

/-- The state after a push of a value: it is stored below the stack pointer, which is lowered to it (R150, R160). -/
def pushed (s : State) (v newPc : Word) : State :=
  setPc (writeReg (storeWord s (pushAddress s) v) rsp (pushAddress s)) newPc

section pushed
variable (s : State) (v newPc : Word)

@[simp] theorem pushed_flags : (pushed s v newPc).flags = s.flags := by simp [pushed]
@[simp] theorem pushed_pc : (pushed s v newPc).pc = newPc := rfl
@[simp] theorem pushed_status : (pushed s v newPc).status = s.status := by simp [pushed]
@[simp] theorem pushed_mem : (pushed s v newPc).mem = s.mem.setWord (pushAddress s).toNat v := by simp [pushed]
@[simp] theorem pushed_cfg : (pushed s v newPc).cfg = s.cfg := by simp [pushed]

/-- A push changes one register, the stack pointer. -/
theorem readReg_pushed (q : RegId) :
    readReg (pushed s v newPc) q = if q = .slot 4 then pushAddress s else readReg s q := by
  simp [pushed, readReg_writeReg, rsp]

/-- A pop after a push reads where the push stored. -/
@[simp] theorem popAddress_pushed : popAddress (pushed s v newPc) = pushAddress s := by
  simp [popAddress, readReg_pushed, rsp]

/-- A pop after a push reads the value pushed. -/
theorem getWord_pushed : (pushed s v newPc).mem.getWord (popAddress (pushed s v newPc)).toNat = v := by
  rw [pushed_mem, popAddress_pushed, Memory.getWord_setWord]

/-- A pop after a push leaves the stack pointer as it was before both. -/
@[simp] theorem poppedPointer_pushed : poppedPointer (pushed s v newPc) = readReg s (.slot 4) := by
  rw [poppedPointer, rsp, readReg_pushed, if_pos rfl, pushAddress_eq, BitVec.sub_add_cancel, rsp]

/-- The eight bytes, the register and the frame of a push. -/
theorem pushed_effect :
    pushAddress s = readReg s (.slot 4) - 8 ∧ StoredWord s (pushed s v newPc) (pushAddress s) v ∧
      OnlyRegister s (pushed s v newPc) (.slot 4) (readReg s (.slot 4) - 8) ∧ (pushed s v newPc).pc = newPc ∧
      (pushed s v newPc).flags = s.flags ∧ (pushed s v newPc).status = s.status ∧ (pushed s v newPc).cfg = s.cfg := by
  have haddr : pushAddress s = readReg s (.slot 4) - 8 := pushAddress_eq s
  refine ⟨haddr, storedWord_of_mem_eq (pushed_mem s v newPc), fun q => ?_, rfl, pushed_flags s v newPc,
    pushed_status s v newPc, pushed_cfg s v newPc⟩
  simp [readReg_pushed, haddr]

end pushed

/-- `pushq` inside memory pushes the register (R160). -/
theorem exec_pushq_of_le {s : State} (rA : RegId) (h : (pushAddress s).toNat + 8 ≤ s.cfg.capacity) :
    exec (.pushq rA) s = .next (pushed s (readReg s rA) (s.pc + 2)) := by
  rw [exec, execPushq, withStore_of_le _ _ h]
  rfl

/-- `call` inside memory pushes the return address (R150). -/
theorem exec_call_of_le {s : State} (dest : Word) (h : (pushAddress s).toNat + 8 ≤ s.cfg.capacity) :
    exec (.call dest) s = .next (pushed s (s.pc + 9) dest) := by
  rw [exec, execCall, withStore_of_le _ _ h]
  rfl

/-- `popq` inside memory raises the stack pointer and then writes the popped value to rA (R161). -/
theorem exec_popq_of_le {s : State} (rA : RegId) (h : (popAddress s).toNat + 8 ≤ s.cfg.capacity) :
    exec (.popq rA) s =
      .next (setPc (writeReg (writeReg s rsp (poppedPointer s)) rA (s.mem.getWord (popAddress s).toNat)) (s.pc + 2)) := by
  rw [exec, execPopq, withLoad_of_le _ h]
  rfl

/-- `ret` inside memory raises the stack pointer and goes to the popped value (R151). -/
theorem exec_ret_of_le {s : State} (h : (popAddress s).toNat + 8 ≤ s.cfg.capacity) :
    exec .ret s = .next (setPc (writeReg s rsp (poppedPointer s)) (s.mem.getWord (popAddress s).toNat)) := by
  rw [exec, execRet, withLoad_of_le _ h]

/-- Settles O42: `exec_call_of_le` and `pushed_effect`. -/
theorem callEffect : Obligations.CallEffect :=
  fun dest s h => ⟨_, exec_call_of_le dest h, pushed_effect s (s.pc + 9) dest⟩

/-- Settles O44: `exec_pushq_of_le` and `pushed_effect`. -/
theorem pushqEffect : Obligations.PushqEffect :=
  fun rA s h => ⟨_, exec_pushq_of_le rA h, pushed_effect s (readReg s rA) (s.pc + 2)⟩

/-- Settles O43: `exec_ret_of_le`, the new `pc` by `Memory.extractLsb'_getWord`. -/
theorem retEffect : Obligations.RetEffect := fun _ h =>
  ⟨_, exec_ret_of_le h, fun _ hk => Memory.extractLsb'_getWord _ _ hk,
    onlyRegister_of_reads fun _ => readReg_setPc .., by simp, by simp, sameMemory_of_mem_eq (by simp), by simp⟩

/-- The registers a pop leaves: rA has the popped value, and the stack pointer is raised unless it is rA (R79). -/
theorem readReg_popped (s : State) (rA : RegId) (v p : Word) (q : RegId) :
    readReg (setPc (writeReg (writeReg s rsp (poppedPointer s)) rA v) p) q =
      if q = rA ∧ q ≠ .none then v else if q = .slot 4 then poppedPointer s else readReg s q := by
  simp only [readReg_setPc, readReg_writeReg, rsp]
  grind

/-- Settles O45: `exec_popq_of_le`, the registers by `readReg_popped`. -/
theorem popqEffect : Obligations.PopqEffect := fun rA s h =>
  ⟨_, _, exec_popq_of_le rA h, fun _ hk => Memory.extractLsb'_getWord _ _ hk, readReg_popped s rA _ _, rfl, by simp,
    by simp, sameMemory_of_mem_eq (by simp), by simp⟩

/-! ## Data accesses outside memory -/

/-- Settles O46: `exec_of_dataOutside` at the address of each of the six. -/
theorem outsideDataAccessRaisesAdr : Obligations.OutsideDataAccessRaisesAdr := fun _ =>
  ⟨fun _ _ _ h => ⟨exec_of_dataOutside (.inr ⟨_, rfl, h⟩), exec_of_dataOutside (.inl ⟨_, rfl, h⟩)⟩,
    fun h => ⟨fun _ => exec_of_dataOutside (.inr ⟨_, rfl, h⟩), fun _ => exec_of_dataOutside (.inr ⟨_, rfl, h⟩)⟩,
    fun h => ⟨exec_of_dataOutside (.inl ⟨_, rfl, h⟩), fun _ => exec_of_dataOutside (.inl ⟨_, rfl, h⟩)⟩⟩

/-- Below a stack pointer of 0 to 7 the push address wraps past every legal capacity. -/
theorem capacity_lt_pushAddress {s : State} (hC : s.cfg.wf) (h : (readReg s (.slot 4)).toNat < 8) :
    s.cfg.capacity < (pushAddress s).toNat + 8 := by
  obtain ⟨-, hC⟩ := hC
  have h8 : (8 : Word).toNat = 8 := rfl
  rw [pushAddress_eq, rsp, BitVec.toNat_sub, h8]
  omega

/-- Settles O47: the wrapped push address lies outside memory. -/
theorem pushBelowZeroRaisesAdr : Obligations.PushBelowZeroRaisesAdr := fun _ _ _ hC h =>
  have hout := capacity_lt_pushAddress hC h
  ⟨exec_of_dataOutside (.inr ⟨_, rfl, hout⟩), exec_of_dataOutside (.inr ⟨_, rfl, hout⟩)⟩

/-- Settles O23: at the last eight bytes the store and the load complete, and one byte further their access lies outside. -/
theorem edgeOfMemory : Obligations.EdgeOfMemory := by
  refine fun s disp rA rB => ⟨fun h => ?_, fun h => ?_⟩
  · exact ⟨⟨_, exec_rmmovq_of_le h.le, rfl, rfl⟩, ⟨_, exec_mrmovq_of_le h.le, rfl, by simp⟩⟩
  · have hout : s.cfg.capacity < (effectiveAddress s disp rB).toNat + 8 := by omega
    exact ⟨exec_of_dataOutside (.inr ⟨_, rfl, hout⟩), exec_of_dataOutside (.inl ⟨_, rfl, hout⟩)⟩

/-! ## A store and the next fetch -/

/-- The bytes of a 64-bit value, by number. -/
theorem bytesOfWord_getElem? (v : Word) (k : Nat) :
    (bytesOfWord v)[k]? = if k < 8 then some (byteOfWord v k) else none := by
  by_cases hk : k < 8
  · rw [if_pos hk]
    interval_cases k <;> rfl
  · rw [if_neg hk, List.getElem?_eq_none (by rw [bytesOfWord_length]; omega)]

/-- Where a 64-bit value is stored inside memory, its bytes are the first eight read from there. -/
theorem take_bytesAt_of_mem_eq {t : State} {m : Memory} {a : Nat} {v : Word} (hm : t.mem = m.setWord a v)
    (hb : a + 8 ≤ t.cfg.capacity) : (bytesAt t a 10).take 8 = bytesOfWord v := by
  ext1 k
  rw [List.getElem?_take, bytesAt_getElem?, bytesOfWord_getElem?]
  by_cases hk : k < 8
  · have hin : k < 10 ∧ a + k < t.cfg.capacity := by omega
    simp [hk, hin, hm, Memory.get_setWord]
  · simp [hk]

/-- Settles O25: the eight bytes are stored at the new `pc`, and lie inside memory. -/
theorem storeIsSeenByTheNextFetch : Obligations.StoreIsSeenByTheNextFetch := by
  intro s t rA rB disp haddr hb h
  rw [exec_rmmovq_of_le hb, haddr] at h
  rw [haddr] at hb
  cases h
  exact take_bytesAt_of_mem_eq rfl hb

/-! ## Instructions together -/

/-- Settles O48: the pop reads the value pushed and raises the stack pointer back. -/
theorem pushThenPopCopies : Obligations.PushThenPopCopies := by
  intro s rA rB h
  have hpop : (popAddress (pushed s (readReg s rA) (s.pc + 2))).toNat + 8 ≤
      (pushed s (readReg s rA) (s.pc + 2)).cfg.capacity := by simpa using h
  refine ⟨_, _, exec_pushq_of_le rA h, exec_popq_of_le rB hpop, fun q => ?_, ?_⟩
  · rw [readReg_popped, getWord_pushed, poppedPointer_pushed, readReg_pushed]
    grind
  · exact BitVec.add_assoc s.pc 2 2

/-- Settles O49: the return reads the address that the call pushed and raises the stack pointer back. -/
theorem callThenRetResumes : Obligations.CallThenRetResumes := by
  intro s dest h
  have hpop : (popAddress (pushed s (s.pc + 9) dest)).toNat + 8 ≤ (pushed s (s.pc + 9) dest).cfg.capacity := by
    simpa using h
  refine ⟨_, _, exec_call_of_le dest h, rfl, exec_ret_of_le hpop, getWord_pushed s (s.pc + 9) dest, fun q => ?_⟩
  rw [readReg_setPc, readReg_writeReg, poppedPointer_pushed, readReg_pushed, rsp]
  grind

/-- A register takes what is written to it, unless it is "none". -/
theorem readReg_writeReg_of_ne_none (s : State) {r : RegId} (v : Word) (h : r ≠ .none) :
    readReg (writeReg s r v) r = v := by
  rw [readReg_writeReg, if_pos ⟨rfl, h⟩]

/-- Settles O50: the moved value is stored at the address and read back from it. -/
theorem moveStoreLoadRoundTrip : Obligations.MoveStoreLoadRoundTrip := by
  intro s p q r a hq hr h
  have hstore : (effectiveAddress (moveIf .always p q s) a .none).toNat + 8 ≤
      (moveIf .always p q s).cfg.capacity := by simpa [moveIf] using h
  refine ⟨_, _, _, rfl, exec_rmmovq_of_le hstore, exec_mrmovq_of_le (by simpa using hstore), ?_⟩
  rw [readReg_setPc, readReg_writeReg_of_ne_none _ _ hr, effectiveAddress_none, effectiveAddress_none, setPc_mem,
    storeWord_mem, Memory.getWord_setWord, moveIf, readReg_setPc]
  exact readReg_writeReg_of_ne_none s (readReg s p) hq

end Sys2Proof.Machine

/-!
PROOFS. The statements about registers, condition codes and conditions over all instructions (10_state.md sections 2 and 4,
40_cycle.md section 6).
-/

namespace Sys2Proof.Machine

/-! ## The destination registers -/

/-- A load leaves a register as it was when what follows it does. -/
theorem readReg_withLoad {s : State} {a : Word} {k : Word → State} {r : RegId}
    (hk : ∀ v, readReg (k v) r = readReg s r) : readReg (withLoad s a k) r = readReg s r := by
  rw [withLoad_eq]
  split
  · exact hk _
  · exact readReg_raise s .adr r

/-- A store leaves a register as it was when what follows it does. -/
theorem readReg_withStore {s : State} {a v : Word} {k : State → State} {r : RegId}
    (hk : ∀ t, readReg (k t) r = readReg t r) : readReg (withStore s a v k) r = readReg s r := by
  rw [withStore_eq]
  split
  · exact (hk _).trans (readReg_storeWord s a v r)
  · exact readReg_raise s .adr r

/-- A move leaves every register but its destination as it was. -/
theorem readReg_moveIf_of_ne {c : Cond} {rA rB r : RegId} (s : State) (h : r ≠ rB) :
    readReg (moveIf c rA rB s) r = readReg s r := by
  rw [moveIf, readReg_setPc]
  split
  · exact readReg_writeReg_other s _ h
  · rfl

/-- An arithmetic instruction leaves every register but its destination as it was. -/
theorem readReg_aluOp_of_ne {fn : AluFn} {rA rB r : RegId} (s : State) (h : r ≠ rB) :
    readReg (aluOp fn rA rB s) r = readReg s r := by
  rw [aluOp, readReg_setPc, readReg_writeReg_other _ _ h, readReg_setFlags]

/-- No instruction has more than two destinations. -/
theorem writtenRegs_length_le (i : Instr) : (writtenRegs i).length ≤ 2 := by
  cases i <;> simp [writtenRegs]

/-- A register that is no destination of an instruction reads as before it. -/
theorem readReg_exec_of_not_written {i : Instr} {s t : State} {r : RegId} (h : exec i s = .next t)
    (hr : r ∉ writtenRegs i) : readReg t r = readReg s r := by
  cases i
  case halt => cases h; exact readReg_raise s .hlt r
  case nop | jmp | jle | jl | je | jne | jge | jg => cases h; exact readReg_setPc s _ r
  case rrmovq | cmovle | cmovl | cmove | cmovne | cmovge | cmovg =>
    cases h
    exact readReg_moveIf_of_ne s (List.ne_of_not_mem_cons hr)
  case addq | subq | andq | xorq =>
    cases h
    exact readReg_aluOp_of_ne s (List.ne_of_not_mem_cons hr)
  case irmovq =>
    cases h
    rw [readReg_setPc, readReg_writeReg_other s _ (List.ne_of_not_mem_cons hr)]
  case rmmovq => cases h; exact readReg_withStore fun t => readReg_setPc t _ r
  case call | pushq =>
    cases h
    have hrsp : r ≠ rsp := List.ne_of_not_mem_cons hr
    exact readReg_withStore fun t => by rw [readReg_setPc, readReg_writeReg_other t _ hrsp]
  case mrmovq =>
    cases h
    exact readReg_withLoad fun v => by
      rw [readReg_setPc, readReg_writeReg_other s _ (List.ne_of_not_mem_cons hr)]
  case ret =>
    cases h
    have hrsp : r ≠ rsp := List.ne_of_not_mem_cons hr
    exact readReg_withLoad fun v => by rw [readReg_setPc, readReg_writeReg_other s _ hrsp]
  case popq rA =>
    cases h
    have hrsp : r ≠ rsp := List.ne_of_not_mem_cons hr
    have hrA : r ≠ rA := List.ne_of_not_mem_cons (List.not_mem_of_not_mem_cons hr)
    exact readReg_withLoad fun v => by
      rw [readReg_setPc, readReg_writeReg_other _ _ hrA, readReg_writeReg_other s _ hrsp]

/-- Settles O26: `writtenRegs_length_le` and the cases of `readReg_exec_of_not_written`. -/
theorem onlyDestinationRegistersChange : Obligations.OnlyDestinationRegistersChange :=
  fun i _ _ h => ⟨writtenRegs_length_le i, fun _ hr => readReg_exec_of_not_written h hr⟩

/-! ## The readers of the condition codes

Setting the condition codes commutes with every other update, and no operand form reads them. -/

theorem writeReg_setFlags (s : State) (f : Flags) (r : RegId) (v : Word) :
    writeReg (setFlags s f) r v = setFlags (writeReg s r v) f := by cases r <;> rfl

theorem setPc_setFlags (s : State) (f : Flags) (p : Word) : setPc (setFlags s f) p = setFlags (setPc s p) f := rfl

theorem setFlags_setFlags (s : State) (f g : Flags) : setFlags (setFlags s f) g = setFlags s g := rfl

theorem raise_setFlags (s : State) (f : Flags) (st : Status) :
    raise (setFlags s f) st = setFlags (raise s st) f := rfl

theorem seqPc_setFlags (s : State) (f : Flags) (n : Nat) : seqPc (setFlags s f) n = seqPc s n := rfl

theorem effectiveAddress_setFlags (s : State) (f : Flags) (disp : Word) (rB : RegId) :
    effectiveAddress (setFlags s f) disp rB = effectiveAddress s disp rB := by
  rw [effectiveAddress, readReg_setFlags, effectiveAddress]

theorem pushAddress_setFlags (s : State) (f : Flags) : pushAddress (setFlags s f) = pushAddress s := rfl

theorem popAddress_setFlags (s : State) (f : Flags) : popAddress (setFlags s f) = popAddress s := rfl

theorem poppedPointer_setFlags (s : State) (f : Flags) : poppedPointer (setFlags s f) = poppedPointer s := rfl

/-- A load reads no condition code when what follows it reads none. -/
theorem withLoad_setFlags {s : State} {f : Flags} {a : Word} {k k' : Word → State}
    (hk : ∀ v, k' v = setFlags (k v) f) : withLoad (setFlags s f) a k' = setFlags (withLoad s a k) f := by
  rw [withLoad_eq, withLoad_eq, setFlags_cfg]
  split
  · exact hk _
  · rfl

/-- A store reads no condition code when what follows it reads none. -/
theorem withStore_setFlags {s : State} {f : Flags} {a v : Word} {k k' : State → State}
    (hk : ∀ t, k' (setFlags t f) = setFlags (k t) f) :
    withStore (setFlags s f) a v k' = setFlags (withStore s a v k) f := by
  rw [withStore_eq, withStore_eq, setFlags_cfg]
  split
  · exact hk (storeWord s a v)
  · rfl

/-- An arithmetic instruction overwrites the condition codes and reads none. -/
theorem aluOp_setFlags (fn : AluFn) (rA rB : RegId) (s : State) (f : Flags) :
    aluOp fn rA rB (setFlags s f) = aluOp fn rA rB s := by
  simp only [aluOp, readReg_setFlags, setFlags_setFlags, seqPc_setFlags]

/-- The unconditional move reads no condition code. -/
theorem moveIf_always_setFlags (rA rB : RegId) (s : State) (f : Flags) :
    moveIf .always rA rB (setFlags s f) = setFlags (moveIf .always rA rB s) f := by
  simp only [moveIf, condHolds, if_true, readReg_setFlags, seqPc_setFlags, writeReg_setFlags, setPc_setFlags]

/-- The instructions that read or write the condition codes: class 6, and the conditional ones of classes 2 and 7. -/
def UsesFlags (i : Instr) : Prop :=
  (∃ fn rA rB, i = Instr.ofAlu fn rA rB) ∨ (∃ c rA rB, c ≠ .always ∧ i = Instr.ofMove c rA rB) ∨
    ∃ c dest, c ≠ .always ∧ i = Instr.ofJump c dest

theorem usesFlags_ofAlu (fn : AluFn) (rA rB : RegId) : UsesFlags (Instr.ofAlu fn rA rB) :=
  .inl ⟨fn, rA, rB, rfl⟩

theorem usesFlags_ofMove {c : Cond} (hc : c ≠ .always) (rA rB : RegId) : UsesFlags (Instr.ofMove c rA rB) :=
  .inr (.inl ⟨c, rA, rB, hc, rfl⟩)

theorem usesFlags_ofJump {c : Cond} (hc : c ≠ .always) (dest : Word) : UsesFlags (Instr.ofJump c dest) :=
  .inr (.inr ⟨c, dest, hc, rfl⟩)

/-- An instruction that uses no condition code does the same under any other, and keeps that. -/
theorem exec_setFlags {i : Instr} {s t : State} {f : Flags} (hi : ¬ UsesFlags i) (h : exec i s = .next t) :
    exec i (setFlags s f) = .next (setFlags t f) := by
  cases i
  case addq rA rB => exact absurd (usesFlags_ofAlu .add rA rB) hi
  case subq rA rB => exact absurd (usesFlags_ofAlu .sub rA rB) hi
  case andq rA rB => exact absurd (usesFlags_ofAlu .and rA rB) hi
  case xorq rA rB => exact absurd (usesFlags_ofAlu .xor rA rB) hi
  case cmovle rA rB => exact absurd (usesFlags_ofMove (c := .le) (by decide) rA rB) hi
  case cmovl rA rB => exact absurd (usesFlags_ofMove (c := .l) (by decide) rA rB) hi
  case cmove rA rB => exact absurd (usesFlags_ofMove (c := .e) (by decide) rA rB) hi
  case cmovne rA rB => exact absurd (usesFlags_ofMove (c := .ne) (by decide) rA rB) hi
  case cmovge rA rB => exact absurd (usesFlags_ofMove (c := .ge) (by decide) rA rB) hi
  case cmovg rA rB => exact absurd (usesFlags_ofMove (c := .g) (by decide) rA rB) hi
  case jle dest => exact absurd (usesFlags_ofJump (c := .le) (by decide) dest) hi
  case jl dest => exact absurd (usesFlags_ofJump (c := .l) (by decide) dest) hi
  case je dest => exact absurd (usesFlags_ofJump (c := .e) (by decide) dest) hi
  case jne dest => exact absurd (usesFlags_ofJump (c := .ne) (by decide) dest) hi
  case jge dest => exact absurd (usesFlags_ofJump (c := .ge) (by decide) dest) hi
  case jg dest => exact absurd (usesFlags_ofJump (c := .g) (by decide) dest) hi
  case halt | nop | jmp => cases h; rfl
  case rrmovq rA rB => cases h; exact congrArg _ (moveIf_always_setFlags rA rB s f)
  case irmovq =>
    cases h
    simp only [exec, execIrmovq, seqPc_setFlags, writeReg_setFlags, setPc_setFlags]
  case rmmovq | call | pushq =>
    cases h
    simp only [exec, execRmmovq, execCall, execPushq, effectiveAddress_setFlags, pushAddress_setFlags,
      readReg_setFlags, seqPc_setFlags]
    exact congrArg _ (withStore_setFlags fun t => by simp only [writeReg_setFlags, setPc_setFlags])
  case mrmovq | ret | popq =>
    cases h
    simp only [exec, execMrmovq, execRet, execPopq, effectiveAddress_setFlags, popAddress_setFlags,
      poppedPointer_setFlags, seqPc_setFlags, writeReg_setFlags, setPc_setFlags]
    exact congrArg _ (withLoad_setFlags fun v => rfl)

/-- Settles O28: class 6 by `aluOp_setFlags`, the instructions that use no condition code by `exec_setFlags`. -/
theorem flagsAreReadByConditionalsOnly : Obligations.FlagsAreReadByConditionalsOnly := by
  refine ⟨fun fn rA rB s t f h => ?_, fun i s t f halu hmove hjump h => ?_⟩
  · rw [exec_ofAlu] at h ⊢
    cases h
    exact congrArg _ (aluOp_setFlags fn rA rB s f)
  · have hi : ¬ UsesFlags i := by
      rintro (⟨fn, rA, rB, rfl⟩ | ⟨c, rA, rB, hc, rfl⟩ | ⟨c, dest, hc, rfl⟩)
      · exact halu fn rA rB rfl
      · exact hmove c rA rB hc rfl
      · exact hjump c dest hc rfl
    exact exec_setFlags hi h

/-! ## The conditions after a subtraction -/

/-- After a subtraction `ZF` says that the operands are equal. -/
theorem aluFlags_sub_zf (a b : Word) : (aluFlags .sub a b).zf = decide (b.toInt = a.toInt) := by
  rw [Bool.eq_iff_iff, decide_eq_true_eq, BitVec.toInt_inj, aluFlags, beq_iff_eq]
  exact sub_eq_zero

/-- After a subtraction the sign, corrected by the overflow, is that of the difference of the signed operands (R76, D13). -/
theorem aluFlags_sub_sf_xor_of (a b : Word) :
    ((aluFlags .sub a b).sf ^^ (aluFlags .sub a b).of) = decide (b.toInt < a.toInt) := by
  have ha := BitVec.toInt_lt (x := a)
  have hb := BitVec.toInt_lt (x := b)
  have ha' := BitVec.le_toInt a
  have hb' := BitVec.le_toInt b
  have hof : (aluFlags .sub a b).of = true ↔ _ := aluOverflow_sub_iff a b
  have hsf : (aluFlags .sub a b).sf = true ↔ (b.toInt - a.toInt).bmod (2 ^ 64) < 0 := by
    rw [← BitVec.toInt_sub]
    exact msb_eq_true_iff (b - a)
  rw [Int.bmod_def] at hsf
  rw [Bool.eq_iff_iff, Bool.xor_iff_ne, decide_eq_true_eq, ne_eq, Bool.eq_iff_iff, hsf, hof]
  split <;> omega

/-- Settles O29: each condition is its formula in `ZF` and in `SF ^ OF`, which a subtraction sets to the two comparisons. -/
theorem conditionsAfterSubtractionCompare : Obligations.ConditionsAfterSubtractionCompare := by
  intro a b
  simp only [condHolds, aluFlags_sub_zf, aluFlags_sub_sf_xor_of]
  refine ⟨?_, ?_, ?_, ?_, ?_, ?_⟩ <;> simp <;> omega

end Sys2Proof.Machine

/-!
PROOFS. The two statements of equivalence: the meanings written from the family files and the cycle of the control table
(40_cycle.md sections 11 and 12).
-/

namespace Sys2Proof.Machine

/-! ## The cycle after the memory stage -/

/-- What the cycle does with the memory stage's answer: a failed bounds check raises `ADR`, and the state and the value read
go on otherwise (R78). -/
def afterMemory (s : State) (k : State → Word → State) : Option (State × Word) → State
  | none => raise s .adr
  | some (t, valM) => k t valM

/-- After a read of the memory stage the cycle is a load. -/
theorem afterMemory_read (s : State) (a : Word) (k : State → Word → State) :
    afterMemory s k ((memRead8 s a).map fun v => (s, v)) = withLoad s a (k s) := by
  unfold withLoad
  cases memRead8 s a <;> rfl

/-- After a write of the memory stage the cycle is a store. -/
theorem afterMemory_write (s : State) (a v : Word) (k : State → Word → State) :
    afterMemory s k ((memWrite8 s a v).map fun t => (t, 0)) = withStore s a v fun t => k t 0 := by
  unfold withStore
  cases memWrite8 s a v <;> rfl

/-! ## The rows of the control table

On fields of a known class the row is known, and the cycle is the composition of the stages that the row selects. -/

section rows
variable (ifun rA rB : Nibble) (valC : Word) (s : State)

/-- Row 2: source A goes through the ALU, and the destination degrades where the condition is false (R77). -/
theorem cycle_move {c : Cond} (hc : Cond.ofFn ifun = some c) :
    cycle ⟨2, ifun, rA, rB, valC⟩ s = moveIf c (.ofNibble rA) (.ofNibble rB) s := by
  have hdst : selectDstE ⟨2, ifun, rA, rB, valC⟩ s = if condHolds c s.flags then .ofNibble rB else .none := by
    rw [selectDstE, selectCnd, hc, Option.getD_some]
    cases condHolds c s.flags <;> rfl
  calc cycle ⟨2, ifun, rA, rB, valC⟩ s
    _ = setPc (writeReg s (selectDstE ⟨2, ifun, rA, rB, valC⟩ s) (aluResult .add (readReg s (.ofNibble rA)) 0))
          (seqPc s 2) := rfl
    _ = moveIf c (.ofNibble rA) (.ofNibble rB) s := by rw [hdst, aluResult_zero]; rfl

/-- Row 3: the immediate goes through the ALU. -/
theorem cycle_irmovq :
    cycle ⟨3, ifun, rA, rB, valC⟩ s = setPc (writeReg s (.ofNibble rB) valC) (seqPc s 10) := by
  calc cycle ⟨3, ifun, rA, rB, valC⟩ s
    _ = setPc (writeReg s (.ofNibble rB) (aluResult .add valC 0)) (seqPc s 10) := rfl
    _ = _ := by rw [aluResult_zero]

/-- Row 4: source A is written at the ALU result, the effective address. -/
theorem cycle_rmmovq :
    cycle ⟨4, ifun, rA, rB, valC⟩ s =
      withStore s (effectiveAddress s valC (.ofNibble rB)) (readReg s (.ofNibble rA)) fun t =>
        setPc t (seqPc s 10) :=
  afterMemory_write s _ _ fun t _ => setPc t (seqPc s 10)

/-- Row 5: rA takes the value read at the ALU result, the effective address. -/
theorem cycle_mrmovq :
    cycle ⟨5, ifun, rA, rB, valC⟩ s =
      withLoad s (effectiveAddress s valC (.ofNibble rB)) fun v =>
        setPc (writeReg s (.ofNibble rA) v) (seqPc s 10) :=
  afterMemory_read s _ fun t v => setPc (writeReg t (.ofNibble rA) v) (seqPc s 10)

/-- Row 6: the sub-function selects the ALU function, and the flags are written. -/
theorem cycle_alu {fn : AluFn} (hfn : AluFn.ofFn ifun = some fn) :
    cycle ⟨6, ifun, rA, rB, valC⟩ s = aluOp fn (.ofNibble rA) (.ofNibble rB) s := by
  have hsel : selectAluFn ⟨6, ifun, rA, rB, valC⟩ = fn := by
    rw [selectAluFn, hfn]
    rfl
  subst hsel
  rfl

/-- Row 7: the condition selects between the immediate and the sequential address. -/
theorem cycle_jump {c : Cond} (hc : Cond.ofFn ifun = some c) :
    cycle ⟨7, ifun, rA, rB, valC⟩ s = jumpIf c valC s := by
  have hcnd : selectCnd ⟨7, ifun, rA, rB, valC⟩ s = condHolds c s.flags := by
    rw [selectCnd, hc]
    rfl
  rw [jumpIf, ← hcnd]
  rfl

/-- Row 8: the return address is written below the stack pointer. -/
theorem cycle_call :
    cycle ⟨8, ifun, rA, rB, valC⟩ s =
      withStore s (pushAddress s) (seqPc s 9) fun t => setPc (writeReg t rsp (pushAddress s)) valC :=
  afterMemory_write s _ _ fun t _ => setPc (writeReg t rsp (pushAddress s)) valC

/-- The ALU of rows 9 and 11 raises the stack pointer, with the constant as its first input. -/
theorem aluResult_poppedPointer : aluResult .add 8 (readReg s rsp) = poppedPointer s :=
  aluResult_plus8 (readReg s rsp)

/-- Row 9: the value at the old stack pointer becomes `pc`. -/
theorem cycle_ret :
    cycle ⟨9, ifun, rA, rB, valC⟩ s =
      withLoad s (popAddress s) fun v => setPc (writeReg s rsp (poppedPointer s)) v := by
  rw [← aluResult_poppedPointer]
  exact afterMemory_read s _ fun t v => setPc (writeReg t rsp (aluResult .add 8 (readReg s rsp))) v

/-- Row 10: source A is written below the stack pointer. -/
theorem cycle_pushq :
    cycle ⟨10, ifun, rA, rB, valC⟩ s =
      withStore s (pushAddress s) (readReg s (.ofNibble rA)) fun t =>
        setPc (writeReg t rsp (pushAddress s)) (seqPc s 2) :=
  afterMemory_write s _ _ fun t _ => setPc (writeReg t rsp (pushAddress s)) (seqPc s 2)

/-- Row 11: the memory path writes rA after the ALU path has raised the stack pointer (R79). -/
theorem cycle_popq :
    cycle ⟨11, ifun, rA, rB, valC⟩ s =
      withLoad s (popAddress s) fun v =>
        setPc (writeReg (writeReg s rsp (poppedPointer s)) (.ofNibble rA) v) (seqPc s 2) := by
  rw [← aluResult_poppedPointer]
  exact afterMemory_read s _ fun t v =>
    setPc (writeReg (writeReg t rsp (aluResult .add 8 (readReg s rsp))) (.ofNibble rA) v) (seqPc s 2)

end rows

/-! ## The meanings -/

/-- The meaning of the class-2 instruction of a condition. -/
theorem exec_ofMove (c : Cond) (rA rB : RegId) (s : State) :
    exec (Instr.ofMove c rA rB) s = .next (moveIf c rA rB s) := by
  cases c <;> rfl

/-- The meaning of the instruction that fields stand for is their cycle: the rows of the control table, class by class. -/
theorem exec_eq_cycle {f : Fields} {i : Instr} (s : State) (h : f.instr? = some i) : exec i s = .next (cycle f s) := by
  obtain ⟨icode, ifun, rA, rB, valC⟩ := f
  unfold Fields.instr? at h
  split at h
  case h_1 hk => obtain rfl : icode = 0 := BitVec.eq_of_toNat_eq hk; cases h; rfl
  case h_2 hk => obtain rfl : icode = 1 := BitVec.eq_of_toNat_eq hk; cases h; rfl
  case h_3 hk =>
    obtain rfl : icode = 2 := BitVec.eq_of_toNat_eq hk
    obtain ⟨c, hc, rfl⟩ := Option.map_eq_some_iff.mp h
    rw [exec_ofMove, cycle_move ifun rA rB valC s hc]
  case h_4 hk =>
    obtain rfl : icode = 3 := BitVec.eq_of_toNat_eq hk
    cases h
    rw [cycle_irmovq, exec, execIrmovq]
  case h_5 hk =>
    obtain rfl : icode = 4 := BitVec.eq_of_toNat_eq hk
    cases h
    rw [cycle_rmmovq, exec, execRmmovq]
  case h_6 hk =>
    obtain rfl : icode = 5 := BitVec.eq_of_toNat_eq hk
    cases h
    rw [cycle_mrmovq, exec, execMrmovq]
  case h_7 hk =>
    obtain rfl : icode = 6 := BitVec.eq_of_toNat_eq hk
    obtain ⟨fn, hfn, rfl⟩ := Option.map_eq_some_iff.mp h
    rw [exec_ofAlu, cycle_alu ifun rA rB valC s hfn]
  case h_8 hk =>
    obtain rfl : icode = 7 := BitVec.eq_of_toNat_eq hk
    obtain ⟨c, hc, rfl⟩ := Option.map_eq_some_iff.mp h
    rw [exec_ofJump, cycle_jump ifun rA rB valC s hc]
  case h_9 hk =>
    obtain rfl : icode = 8 := BitVec.eq_of_toNat_eq hk
    cases h
    rw [cycle_call, exec, execCall]
  case h_10 hk =>
    obtain rfl : icode = 9 := BitVec.eq_of_toNat_eq hk
    cases h
    rw [cycle_ret, exec, execRet]
  case h_11 hk =>
    obtain rfl : icode = 10 := BitVec.eq_of_toNat_eq hk
    cases h
    rw [cycle_pushq, exec, execPushq]
  case h_12 hk =>
    obtain rfl : icode = 11 := BitVec.eq_of_toNat_eq hk
    cases h
    rw [cycle_popq, exec, execPopq]
  case h_13 => cases h

/-- Settles O51: `exec_eq_cycle`. -/
theorem execIsControlTableCycle : Obligations.ExecIsControlTableCycle :=
  fun _ _ s h => exec_eq_cycle s h

/-- Settles O52: decoded fields stand for the decoded instruction, whose meaning is their cycle; and the fields rejected are
the bytes rejected. -/
theorem stepIsControlTableCycle : Obligations.StepIsControlTableCycle := by
  intro s hs
  cases hf : decodeFields (fetchBytes s) with
  | ok f rest =>
    obtain ⟨hc, hr, -⟩ := decodeFields_eq_ok.mp hf
    obtain ⟨i, hi⟩ := Option.ne_none_iff_exists'.mp (Fields.instr?_ne_none hc hr)
    rw [step_of_decode hs (decode_eq_ok.mpr ⟨f, hf, hi⟩)]
    exact exec_eq_cycle s hi
  | reject r => exact step_of_reject hs (decode_eq_reject.mpr hf)

end Sys2Proof.Machine
